-- ==== Sys2Proof/Word.lean ====
section
/-! DEFINITION. The value types of the block: the 32-bit word (R7), the byte of a memory (R21), and the
10-bit lane of a packed word (R85). -/

namespace Sys2Proof

/-- A word: 32 bits, the size of every register, operand and result (R7, `XLEN` of R6). -/
abbrev Word := BitVec 32

/-- A byte of a memory, or a channel byte of a raw word (R21, `CHAN_W` of R6). -/
abbrev Byte := BitVec 8

/-- One lane of a packed word: 10 bits, always read as unsigned (R85, `LANE_W` of R6). -/
abbrev Lane := BitVec 10

end Sys2Proof
end

