-- ==== Sys2Proof/Machine/Operands.lean ====
section
/-! DEFINITION. How operand words are read and result words are put together: truncation (R7), shift amounts and
narrow operands (R52), raw words and packed words (R85). The signed view of R8 is `BitVec.toInt`. -/

namespace Sys2Proof.Machine

/-- R7: `trunc32(v) = v mod 2^32`, for any integer. -/
def trunc32 (v : Int) : Word := BitVec.ofInt 32 v

/-- R52 (a): the shift amount `b[4:0]`. -/
def shiftAmount (b : Word) : Nat := (b.extractLsb' 0 5).toNat

/-- R52 (b), (d), (e): the low 8 bits of an operand that is used as a byte. -/
def lowByte (w : Word) : Byte := w.extractLsb' 0 8

/-- R85: channel byte `k` of a raw word, `w[8k+7 : 8k]`. -/
def channel (w : Word) (k : Nat) : Byte := w.extractLsb' (8 * k) 8

/-- R85: lane `k` of a packed word, `w[10k+9 : 10k]`. -/
def lane (w : Word) (k : Nat) : Lane := w.extractLsb' (10 * k) 10

/-- R85: the packed word of three lanes; bits 31:30 are 0 (D10). -/
def mklanes (l2 l1 l0 : Lane) : Word := 0#2 ++ l2 ++ l1 ++ l0

/-- An 8-bit value in a lane: unscaled, the lane's upper two bits zero (R87, R89, R90). -/
def byteLane (c : Byte) : Lane := c.setWidth 10

/-- R88, R85: the raw word of a tag byte and three channel bytes. -/
def mkraw (tag c2 c1 c0 : Byte) : Word := tag ++ c2 ++ c1 ++ c0

/-- R30: the word whose bytes, lowest address first, are `b0`, `b1`, `b2`, `b3`. -/
def littleEndian (b0 b1 b2 b3 : Byte) : Word := b3 ++ b2 ++ b1 ++ b0

/-- R30: byte `i` of a word in memory order, `w[8i+7 : 8i]`. -/
def byteOf (w : Word) (i : Nat) : Byte := w.extractLsb' (8 * i) 8

end Sys2Proof.Machine
end

