-- ==== Sys2Proof/Config.lean ====
section
/-! DEFINITION. What is fixed when the machine is built (R6, R21, R22), and the choices the spec leaves
open for the diagnostic dump (R67). -/

namespace Sys2Proof

/-- The constants of one Memory instance: base address, size in bytes and word granularity (R21).
They are natural numbers, so that `base + size` is computed without wrap-around (R60). -/
structure MemSpec where
  base : Nat
  size : Nat
  granularity : Nat
  deriving DecidableEq, Repr

/-- The construction-time configuration: the constants of the instruction memory and of the data
memory. The spec leaves the two bases and sizes OPEN (R6, R35, D12). -/
structure Config where
  imem : MemSpec
  dmem : MemSpec
  deriving DecidableEq, Repr

/-- Whether two address ranges have no address in common (R22 (a)). -/
def MemSpec.disjoint (c d : MemSpec) : Bool :=
  c.base + c.size ≤ d.base || d.base + d.size ≤ c.base

/-- The constraints of R22 (b) and (c) on one instance: granularity 4, base and size multiples of 4,
size not 0, and the whole range below 2^32 (D11). -/
def MemSpec.valid (c : MemSpec) : Bool :=
  c.granularity == 4 && c.base % 4 == 0 && c.size % 4 == 0 && decide (0 < c.size) &&
    decide (c.base + c.size ≤ 2 ^ 32)

/-- R22: the check made at configuration time. A configuration that fails it is a `ConfigError`
(R99) and no machine is built. -/
def Config.valid (c : Config) : Bool :=
  c.imem.valid && c.dmem.valid && c.imem.disjoint c.dmem

/-- The example map of `95_test_vectors.md`. DESIGN CHOICE (notes/assumptions/3.md): the spec leaves the
map OPEN; this is only the map that `State.reset` is built with, and no meaning depends on it. -/
def Config.example95 : Config :=
  { imem := { base := 0x0000, size := 0x1000, granularity := 4 }
    dmem := { base := 0x1000, size := 0x100, granularity := 4 } }

/-- FREE VALUE (R67, notes/assumptions/17.md): whether a run of `length` zero rows that starts at address
`first` is collapsed when zero runs are skipped. `meetsLast` says that the always-printed last row, which `length`
leaves out, is a zero row that continues the run. No source says how long a run must be, nor whether that last row
counts. -/
opaque Config.dumpCollapses (first length : Nat) (meetsLast : Bool) : Bool

/-- FREE VALUE (R67, notes/assumptions/17.md): whether the first row of a collapsed zero run is still
printed; arguments as for `Config.dumpCollapses`. No source says. -/
opaque Config.dumpShowsFirst (first length : Nat) (meetsLast : Bool) : Bool

end Sys2Proof
end

