-- ==== Sys2Proof/Syntax.lean ====
section
/-! DEFINITION. The commands of the block (R43), one constructor of `Instr` for each mnemonic of the opcode
table, and the port values that carry a command to the block (R44, R47, R49, R50, R51). -/

namespace Sys2Proof

/-- The two Memory instances of a machine (R21, R27). -/
inductive MemId where
  | imem
  | dmem
  deriving DecidableEq, Repr

/-- The commands of R43. An operand is a value on a port, supplied by the driver or the host: no
command names a register but RF.READ and RF.WRITE. The three table rows of ALU.NONE are one
constructor that keeps the selector value it was spelled with (R46). -/
inductive Instr where
  /-- ADD, R70. -/
  | add (a b : Word)
  /-- SUB, R71. -/
  | sub (a b : Word)
  /-- AND, R72. -/
  | and (a b : Word)
  /-- OR, R73. -/
  | or (a b : Word)
  /-- XOR, R74. -/
  | xor (a b : Word)
  /-- SLT, R75. -/
  | slt (a b : Word)
  /-- SLTU, R76. -/
  | sltu (a b : Word)
  /-- SLL, R77. -/
  | sll (a b : Word)
  /-- SRA, R78. -/
  | sra (a b : Word)
  /-- SRL, R79. -/
  | srl (a b : Word)
  /-- COPY1, R80. -/
  | copy1 (a b : Word)
  /-- COPY2, R81. -/
  | copy2 (a b : Word)
  /-- SEQ, R82. -/
  | seq (a b : Word)
  /-- MUL, R83. -/
  | mul (a b : Word)
  /-- VUNPACK, R87. -/
  | vunpack (a b : Word)
  /-- VPACK, R88. -/
  | vpack (a b : Word)
  /-- VBCAST, R89. -/
  | vbcast (a b : Word)
  /-- VADDI, R90. -/
  | vaddi (a b : Word)
  /-- VADD, R91. -/
  | vadd (a b : Word)
  /-- VSUB, R92. -/
  | vsub (a b : Word)
  /-- VMUL, R93. -/
  | vmul (a b : Word)
  /-- ALU.NONE, R84: an ALU command whose selector `fn` is assigned to no operation. -/
  | aluNone (fn : Nat) (a b : Word)
  /-- ADDER, R68. -/
  | adder (a b : Word)
  /-- RF.READ, R56. The register number is an integer, as in the contract `read(regno)`. -/
  | rfRead (regno : Int)
  /-- RF.WRITE, R57. The register number and the value are integers, as in `write(regno, value)`. -/
  | rfWrite (regno value : Int)
  /-- MEM.NOP, R61: an access that is not valid; its other ports are ignored. -/
  | memNop (m : MemId) (address : Word) (data : Int) (fn : Nat)
  /-- MEM.READ, R62; `data` is present and ignored. -/
  | memRead (m : MemId) (address : Word) (data : Int)
  /-- MEM.WRITE, R63. -/
  | memWrite (m : MemId) (address : Word) (data : Int)
  /-- MEM.BADFN, R64: a valid access whose selector `fn` is neither read nor write. -/
  | memBadfn (m : MemId) (address : Word) (data : Int) (fn : Nat)
  /-- COPY_TO, R65. -/
  | copyTo (m : MemId) (address : Nat) (bytes : List Byte)
  /-- COPY_FROM, R66. -/
  | copyFrom (m : MemId) (address length : Nat)
  /-- MEM.DUMP, R67. -/
  | memDump (m : MemId) (skipZeroRuns : Bool)
  /-- RF.DUMP, R58. -/
  | rfDump
  deriving DecidableEq, Repr

/-- The port values that the driver or the host applies: the encoding of a command is this tuple (R55). There is no
instruction word (R43, R54). Selectors are natural numbers and register numbers integers, as
D2 and R49 allow (notes/assumptions/4.md). -/
inductive Input where
  /-- Format ALUFN, R44: the selector and the two operand words. -/
  | alufn (fn : Nat) (a b : Word)
  /-- Format ADDER, R50: the second operand may be left out. -/
  | adder (a : Word) (b : Option Word)
  /-- Format RFRD, R49. -/
  | rfrd (regno : Int)
  /-- Format RFWR, R49: `wen` false means that no write is invoked. -/
  | rfwr (wen : Bool) (regno wdata : Int)
  /-- Format MEMACC of one instance, R47. -/
  | memacc (m : MemId) (valid : Bool) (address : Word) (data : Int) (fn : Nat)
  /-- Host entry point COPY_TO, R51. -/
  | copyTo (m : MemId) (address : Nat) (bytes : List Byte)
  /-- Host entry point COPY_FROM, R51. -/
  | copyFrom (m : MemId) (address length : Nat)
  /-- Host entry point MEM.DUMP, R51. -/
  | memDump (m : MemId) (skipZeroRuns : Bool)
  /-- Host entry point RF.DUMP, R51. -/
  | rfDump
  /-- The driver's mark between two cycles (R55, R111): no command of the block. -/
  | cycle
  deriving DecidableEq, Repr

end Sys2Proof
end

