-- ==== Sys2Proof/Machine/State.lean ====
section
/-! DEFINITION. The state of the block as plain data (R12 to R26), the ways a command can stop (R95), and the
state after construction (R24, R25, R107). -/

namespace Sys2Proof.Machine

/-- The failures that the block raises; each ends the run and changes no state (R95, R103). Safe: the hardware
stops there too. `AccessFailure` (R97) is not among them: it is a value that an access returns. -/
inductive Fault where
  /-- `RegOutOfRange` (R96), raised by RF.READ and RF.WRITE; it records the register number. Safe. -/
  | regOutOfRange (regno : Int)
  /-- `RangeError` (R98), raised by COPY_TO and COPY_FROM; it records address and length. Safe. -/
  | rangeError (address length : Nat)
  /-- `ConfigError` (R99), raised by construction, never by a command; it records the configuration.
  Safe: no machine exists. -/
  | configError (config : Config)
  deriving DecidableEq, Repr

/-- Refusals. No command of the block is refused: every command of R43 has its meaning. -/
inductive Refusal where
  /-- An instruction without a meaning, by its mnemonic. No arm of `exec` answers it. Safe. -/
  | notModelled (mnemonic : String)
  deriving DecidableEq, Repr

/-- The symbolic names of the registers, R15. -/
inductive RegName where
  | zero | ra | sp | gp | tp | t0 | t1 | t2
  | s0 | s1 | a0 | a1 | a2 | a3 | a4 | a5
  | a6 | a7 | s2 | s3 | s4 | s5 | s6 | s7
  | s8 | s9 | s10 | s11 | t3 | t4 | t5 | t6
  deriving DecidableEq, Repr

/-- One entry of RF.DUMP (R58): symbolic name, register number, value. -/
structure RegEntry where
  name : RegName
  regno : Nat
  value : Word
  deriving DecidableEq, Repr

/-- One row of MEM.DUMP (R67): address, the four bytes in address order, the little-endian word. -/
structure MemRow where
  address : Nat
  b0 : Byte
  b1 : Byte
  b2 : Byte
  b3 : Byte
  word : Word
  deriving DecidableEq, Repr

/-- One line of MEM.DUMP (R67): a row, or the ellipsis line that stands for a zero run. -/
inductive DumpLine where
  | row (r : MemRow)
  | ellipsis
  deriving DecidableEq, Repr

/-- What a command puts on its output ports (R44, R47, R49 to R51). MODEL's own: the block stores no output, and
no command reads one (R18, notes/assumptions/2.md). -/
inductive Output where
  /-- No output: RF.WRITE, COPY_TO, and a step that issues no command. -/
  | none
  /-- `out` of the ALU or the Adder, or `rdata` of RF.READ. -/
  | word (w : Word)
  /-- `(rdata, ok)` of a Memory access; `ok` true is success. -/
  | access (rdata : Word) (ok : Bool)
  /-- The fresh buffer of COPY_FROM. -/
  | bytes (bs : List Byte)
  /-- The entries of RF.DUMP. -/
  | regDump (entries : List RegEntry)
  /-- The lines of MEM.DUMP. -/
  | memDump (lines : List DumpLine)
  deriving DecidableEq, Repr

/-- The bytes of one Memory instance, as pairs of address and byte: addresses strictly rising, and no pair whose
byte is what an unlisted address reads as. -/
abbrev Memory := List Host.Cell

/-- The state of the machine. `regs`, `imem` and `dmem` are the block's whole mutable state (R12). -/
structure State where
  /-- The construction-time constants of the two instances (R12, R21): no command changes them. -/
  config : Config
  /-- The Register File (R13); cell 0 is read by no rule (R14). -/
  regs : Vector Word 32
  /-- The storage of the instruction memory (R12 (b), R21). -/
  imem : Memory
  /-- The storage of the data memory (R12 (c), R21). -/
  dmem : Memory
  /-- MODEL's own: the inputs that the driver and the host have still to apply, first one first (R5). -/
  input : List Input
  /-- MODEL's own: the outputs of the latest step. -/
  output : Output
  deriving DecidableEq, Repr

/-- The machine right after construction with the constants `c`: registers 1 to 31 and every byte 0 (R24, R25, D13),
no input pending. -/
def State.initial (c : Config) : State :=
  { config := c
    regs := Vector.replicate 32 0#32
    imem := []
    dmem := []
    input := []
    output := .none }

/-- The machine right after reset, that is construction (R26, R107), on the example map
(DESIGN CHOICE, notes/assumptions/3.md: the spec leaves the map OPEN). -/
def State.reset : State := State.initial Config.example95

/-- `s` with its registers replaced. -/
def State.withRegs (s : State) (v : Vector Word 32) : State := { s with regs := v }

/-- `s` with the storage of the instruction memory replaced. -/
def State.withImem (s : State) (v : Memory) : State := { s with imem := v }

/-- `s` with the storage of the data memory replaced. -/
def State.withDmem (s : State) (v : Memory) : State := { s with dmem := v }

/-- `s` with the pending inputs replaced. -/
def State.withInput (s : State) (v : List Input) : State := { s with input := v }

/-- `s` with the output ports replaced. -/
def State.withOutput (s : State) (v : Output) : State := { s with output := v }

end Sys2Proof.Machine
end

