-- ==== Sys2Proof/Machine/Ops.lean ====
section
/-! DEFINITION. The shared operations: answering and failing (R95 to R104), the Register File (R13, R14), the bytes
and words of a memory (R21, R30), the address checks (R60, R65), and construction (R107). -/

namespace Sys2Proof.Machine

/-- The outcomes of a step. -/
abbrev Outcome := Host.Outcome State Fault Refusal

/-! ### Answering and failing -/

/-- A command that changes no state answers with its outputs. -/
def respond (s : State) (o : Output) : Outcome := .next (s.withOutput o)

/-- R95, R103: raising a failure. There is no trap entry: no state is saved, no mode changes, control goes nowhere,
and the run ends. -/
def raiseFailure (f : Fault) : Outcome := .fault f

/-- R97, `AccessFailure`: `(0, failure)` is returned and no state changes. -/
def accessFailure (s : State) : Outcome := respond s (.access 0#32 false)

/-- A step in which no command is issued: nothing happens in the block, and there is no output (R49, R101). -/
def idle (s : State) : Outcome := respond s .none

/-! ### The Register File -/

/-- The register that a register number names, if it is in 0 .. 31 (R56, R57). -/
def regIndex (regno : Int) : Option (Fin 32) :=
  if 0 ≤ regno ∧ regno < 32 then some (Fin.ofNat 32 regno.toNat) else none

/-- R56: reading `x[r]`; register 0 is hard-wired to zero (R14). -/
def State.readReg (s : State) (r : Fin 32) : Word := if r = 0 then 0#32 else s.regs[r]

/-- R57: writing `x[r]`; a write to register 0 is discarded (R14). -/
def State.writeReg (s : State) (r : Fin 32) (v : Word) : State :=
  if r = 0 then s else s.withRegs (s.regs.set r v)

/-! ### The bytes of one memory -/

/-- What an unlisted address reads as: 0, the byte every address holds after construction (R25, D13). -/
def Memory.unlisted : Byte := 0#8

/-- The byte at address `a`, `M.bytes[a]` (R21). -/
def Memory.readByte (mem : Memory) (a : Nat) : Byte :=
  match mem with
  | [] => Memory.unlisted
  | (k, v) :: rest => if k = a then v else Memory.readByte rest a

/-- `M.bytes[a] <- b` (R21), in the canonical form. -/
def Memory.writeByte (mem : Memory) (a : Nat) (b : Byte) : Memory :=
  match mem with
  | [] => if b = Memory.unlisted then [] else [(a, b)]
  | (k, v) :: rest =>
    if a < k then (if b = Memory.unlisted then (k, v) :: rest else (a, b) :: (k, v) :: rest)
    else if a = k then (if b = Memory.unlisted then rest else (a, b) :: rest)
    else (k, v) :: Memory.writeByte rest a b

/-- The bytes at `a`, `a + 1`, …, as many as `n`. -/
def Memory.readBytes (mem : Memory) (a n : Nat) : List Byte :=
  match n with
  | 0 => []
  | n + 1 => mem.readByte a :: Memory.readBytes mem (a + 1) n

/-- Storing bytes at `a`, `a + 1`, …, in ascending order of address (D15). -/
def Memory.writeBytes (mem : Memory) (a : Nat) (bs : List Byte) : Memory :=
  match bs with
  | [] => mem
  | b :: rest => Memory.writeBytes (mem.writeByte a b) (a + 1) rest

/-- `MemRead(M, a, 4)` (R10, R30): the little-endian word. -/
def Memory.readWord (mem : Memory) (a : Nat) : Word :=
  littleEndian (mem.readByte a) (mem.readByte (a + 1)) (mem.readByte (a + 2)) (mem.readByte (a + 3))

/-- `MemWrite(M, a, 4, w)` (R10, R30): the four bytes, lowest first. -/
def Memory.writeWord (mem : Memory) (a : Nat) (w : Word) : Memory :=
  mem.writeBytes a [byteOf w 0, byteOf w 1, byteOf w 2, byteOf w 3]

/-- The canonical form: addresses strictly rising, no pair that reads as an unlisted address does. -/
def Memory.wf (mem : Memory) : Bool :=
  match mem with
  | [] => true
  | (k, v) :: rest => v != Memory.unlisted && rest.all (fun c => decide (k < c.1)) && Memory.wf rest

/-- Every listed address lies in the instance's range `[base, base + size)` (R21). -/
def Memory.within (c : MemSpec) (mem : Memory) : Bool :=
  mem.all fun cell => decide (c.base ≤ cell.1) && decide (cell.1 < c.base + c.size)

/-! ### The two instances -/

/-- The constants of an instance. -/
def State.spec (s : State) (m : MemId) : MemSpec :=
  match m with
  | .imem => s.config.imem
  | .dmem => s.config.dmem

/-- The storage of an instance. -/
def State.mem (s : State) (m : MemId) : Memory :=
  match m with
  | .imem => s.imem
  | .dmem => s.dmem

/-- `s` with the storage of one instance replaced; the instances share no storage (R21). -/
def State.setMem (s : State) (m : MemId) (v : Memory) : State :=
  match m with
  | .imem => s.withImem v
  | .dmem => s.withDmem v

/-- R60: the address is in the instance's range and a multiple of its granularity. -/
def addrOk (c : MemSpec) (address : Word) : Bool :=
  decide (c.base ≤ address.toNat) && decide (address.toNat < c.base + c.size) &&
    address.toNat % c.granularity == 0

/-- R65, R66: `n` bytes from `address` on lie in the instance, on unbounded integers (D15). -/
def rangeOk (c : MemSpec) (address n : Nat) : Bool :=
  decide (c.base ≤ address) && decide (address + n ≤ c.base + c.size)

/-! ### Construction -/

/-- R107: construction checks the configuration first; a violation is a `ConfigError` and no machine is
built (R99). -/
def construct (c : Config) : Outcome :=
  if c.valid then .next (State.initial c) else raiseFailure (.configError c)

end Sys2Proof.Machine
end

