-- ==== Sys2Proof/Machine/Adder.lean ====
section
/-! DEFINITION. The Adder (R68): a unit of its own, though it computes the same function as ADD. -/

namespace Sys2Proof.Machine

/-- ADDER, R68. The default of the second operand is the decoder's (R50). -/
def execAdder (a b : Word) (s : State) : Outcome := respond s (.word (a + b))

end Sys2Proof.Machine
end

