-- ==== Sys2Proof/Machine/Flags.lean ====
section
/-! DEFINITION. The block has no flags, condition codes or predicates (R18): a comparison delivers its outcome
as the result word, and that is all this file holds. -/

namespace Sys2Proof.Machine

/-- The result word of a comparison: 1 when the relation holds, 0 when it does not (R18, R75, R76, R82; for the
two less-than operations the 1 and 0 are the spec's decision D7). -/
def truthWord (holds : Bool) : Word := if holds then 1#32 else 0#32

end Sys2Proof.Machine
end

