-- ==== Sys2Proof/Machine/AluScalar.lean ====
section
/-! DEFINITION. The scalar ALU commands and the unassigned selector (R69 to R84). Every one is total, reads no state
and changes none; it answers with its result word. Operands are read as `a op b` (D6). -/

namespace Sys2Proof.Machine

/-- R69: an ALU command answers with one result word. -/
def aluResult (s : State) (out : Word) : Outcome := respond s (.word out)

/-- ADD, R70. -/
def execAdd (a b : Word) (s : State) : Outcome := aluResult s (a + b)

/-- SUB, R71: operand 2 subtracted from operand 1 (D6). -/
def execSub (a b : Word) (s : State) : Outcome := aluResult s (a - b)

/-- AND, R72. -/
def execAnd (a b : Word) (s : State) : Outcome := aluResult s (a &&& b)

/-- OR, R73. -/
def execOr (a b : Word) (s : State) : Outcome := aluResult s (a ||| b)

/-- XOR, R74. -/
def execXor (a b : Word) (s : State) : Outcome := aluResult s (a ^^^ b)

/-- SLT, R75: operand 1 below operand 2 in the signed view (D6). -/
def execSlt (a b : Word) (s : State) : Outcome := aluResult s (truthWord (a.slt b))

/-- SLTU, R76: operand 1 below operand 2, unsigned (D6). -/
def execSltu (a b : Word) (s : State) : Outcome := aluResult s (truthWord (a.ult b))

/-- SLL, R77: operand 1 shifted by the low five bits of operand 2 (D6). -/
def execSll (a b : Word) (s : State) : Outcome := aluResult s (a <<< shiftAmount b)

/-- SRA, R78: as SRL, with copies of `a[31]` entering at the top. -/
def execSra (a b : Word) (s : State) : Outcome := aluResult s (a.sshiftRight (shiftAmount b))

/-- SRL, R79: zeros enter at the top. -/
def execSrl (a b : Word) (s : State) : Outcome := aluResult s (a >>> shiftAmount b)

/-- COPY1, R80. -/
def execCopy1 (a _b : Word) (s : State) : Outcome := aluResult s a

/-- COPY2, R81. -/
def execCopy2 (_a b : Word) (s : State) : Outcome := aluResult s b

/-- SEQ, R82. -/
def execSeq (a b : Word) (s : State) : Outcome := aluResult s (truthWord (a == b))

/-- MUL, R83: the low 32 bits of the product. -/
def execMul (a b : Word) (s : State) : Outcome := aluResult s (a * b)

/-- ALU.NONE, R84: an unassigned selector gives 0, silently. -/
def execAluNone (_fn : Nat) (_a _b : Word) (s : State) : Outcome := aluResult s 0#32

end Sys2Proof.Machine
end

