-- ==== Sys2Proof/Machine/AluVector.lean ====
section
/-! DEFINITION. The vector ALU commands on three 10-bit lanes (R85 to R94). A lane operation sees one lane of each
operand and nothing else (R86). -/

namespace Sys2Proof.Machine

/-- R86: the packed word whose lane `k` is `f` of lane `k` of both operands, each lane on its own. -/
def lanewise (f : Lane → Lane → Lane) (a b : Word) : Word :=
  mklanes (f (lane a 2) (lane b 2)) (f (lane a 1) (lane b 1)) (f (lane a 0) (lane b 0))

/-- R88: a lane value clamped to 255, compared as unsigned. -/
def saturate (v : Lane) : Byte := if 255#10 < v then 255#8 else v.setWidth 8

/-- R93: the 20-bit product of two lanes. -/
def laneProduct (x y : Lane) : BitVec 20 := x.setWidth 20 * y.setWidth 20

/-- R93: the product of two lanes divided by 256, rounded half up, masked to 10 bits. -/
def laneScale (x y : Lane) : Lane :=
  let p := laneProduct x y
  let q := p >>> 8
  let rounded := if 0x80#8 ≤ p.extractLsb' 0 8 then q + 1#20 else q
  rounded.setWidth 10

/-- A vector command answers with its result word, as every ALU command does (R69). -/
def vectorResult (s : State) (out : Word) : Outcome := respond s (.word out)

/-- VUNPACK, R87: the three channel bytes in the three lanes; the tag byte and `b` are not looked at (D10). -/
def execVunpack (a _b : Word) (s : State) : Outcome :=
  vectorResult s (mklanes (byteLane (channel a 2)) (byteLane (channel a 1)) (byteLane (channel a 0)))

/-- VPACK, R88: saturated channels, and `b[7:0]` as the tag byte at bits 31:24 (D8, C2). -/
def execVpack (a b : Word) (s : State) : Outcome :=
  vectorResult s
    (mkraw (lowByte b) (saturate (lane a 2)) (saturate (lane a 1)) (saturate (lane a 0)))

/-- VBCAST, R89: `a[7:0]` in every lane. -/
def execVbcast (a _b : Word) (s : State) : Outcome :=
  vectorResult s (mklanes (byteLane (lowByte a)) (byteLane (lowByte a)) (byteLane (lowByte a)))

/-- VADDI, R90: the immediate `b[7:0]`, zero-extended (D9), added to every lane. -/
def execVaddi (a b : Word) (s : State) : Outcome :=
  let imm := byteLane (lowByte b)
  vectorResult s (mklanes (lane a 2 + imm) (lane a 1 + imm) (lane a 0 + imm))

/-- VADD, R91. -/
def execVadd (a b : Word) (s : State) : Outcome := vectorResult s (lanewise (· + ·) a b)

/-- VSUB, R92. -/
def execVsub (a b : Word) (s : State) : Outcome := vectorResult s (lanewise (· - ·) a b)

/-- VMUL, R93. -/
def execVmul (a b : Word) (s : State) : Outcome := vectorResult s (lanewise laneScale a b)

end Sys2Proof.Machine
end

