-- ==== Sys2Proof/Machine/MemAccess.lean ====
section
/-! DEFINITION. The checked path to a memory: MEM.NOP, MEM.READ, MEM.WRITE, MEM.BADFN (R59 to R64). The selection of
R59 by `valid` and the selector is the decoder's (R48); the address check is each meaning's. -/

namespace Sys2Proof.Machine

/-- MEM.NOP, R61: success with the word 0, whatever the other ports hold. -/
def execMemNop (_m : MemId) (_address : Word) (_data : Int) (_fn : Nat) (s : State) : Outcome :=
  respond s (.access 0#32 true)

/-- MEM.READ, R62. -/
def execMemRead (m : MemId) (address : Word) (_data : Int) (s : State) : Outcome :=
  if addrOk (s.spec m) address then
    respond s (.access ((s.mem m).readWord address.toNat) true)
  else accessFailure s

/-- MEM.WRITE, R63. -/
def execMemWrite (m : MemId) (address : Word) (data : Int) (s : State) : Outcome :=
  if addrOk (s.spec m) address then
    respond (s.setMem m ((s.mem m).writeWord address.toNat (trunc32 data))) (.access 0#32 true)
  else accessFailure s

/-- MEM.BADFN, R64: failure. R59 checks the address first, and a failed check gives the same answer (R102). -/
def execMemBadfn (_m : MemId) (_address : Word) (_data : Int) (_fn : Nat) (s : State) : Outcome :=
  accessFailure s

end Sys2Proof.Machine
end

