-- ==== Sys2Proof/Machine/MemHost.lean ====
section
/-! DEFINITION. The host's path to a memory: COPY_TO, COPY_FROM, MEM.DUMP (R65 to R67). -/

namespace Sys2Proof.Machine

/-- COPY_TO, R65: all bytes or none. -/
def execCopyTo (m : MemId) (address : Nat) (bytes : List Byte) (s : State) : Outcome :=
  if rangeOk (s.spec m) address bytes.length then
    respond (s.setMem m ((s.mem m).writeBytes address bytes)) .none
  else raiseFailure (.rangeError address bytes.length)

/-- COPY_FROM, R66: the bytes in a fresh buffer. -/
def execCopyFrom (m : MemId) (address length : Nat) (s : State) : Outcome :=
  if rangeOk (s.spec m) address length then
    respond s (.bytes ((s.mem m).readBytes address length))
  else raiseFailure (.rangeError address length)

/-- The dump row of the aligned word at `a` (R67). -/
def memRow (mem : Memory) (a : Nat) : MemRow :=
  { address := a
    b0 := mem.readByte a
    b1 := mem.readByte (a + 1)
    b2 := mem.readByte (a + 2)
    b3 := mem.readByte (a + 3)
    word := mem.readWord a }

/-- The rows of an instance, from its base to its last word in steps of 4 (R67). -/
def memRows (c : MemSpec) (mem : Memory) : List MemRow :=
  (List.range (c.size / 4)).map fun i => memRow mem (c.base + 4 * i)

/-- How a run of zero rows is printed when zero runs are skipped (R67): as it is, or with one ellipsis line in
place of its rows or of all but its first. Which, is the free value `Config.dumpCollapses`, `Config.dumpShowsFirst`.
`meetsLast` says that the last row of the range, printed by itself, is a zero row that follows this run. That a run of which only
its first row would be left is printed as it is, is the model's choice (DESIGN CHOICE, notes/assumptions/17.md). -/
def printZeroRun (run : List MemRow) (meetsLast : Bool) : List DumpLine :=
  match run with
  | [] => []
  | first :: more =>
    match Config.dumpCollapses first.address run.length meetsLast,
        Config.dumpShowsFirst first.address run.length meetsLast, more with
    | true, false, _ => [.ellipsis]
    | true, true, _ :: _ => [.row first, .ellipsis]
    | _, _, _ => run.map .row

/-- The lines of a dump that skips zero runs; `run` holds the zero rows read but not yet printed. The last row is
printed even if it is part of a zero run (R67). DESIGN CHOICE (notes/assumptions/17.md): the spec leaves open whether
that last row counts in the length of a zero run that reaches it. Here `run` never holds it, and the free values of
`printZeroRun` are told apart from the length whether it continues the run, so that either count is allowed. -/
def skipRuns (run rows : List MemRow) : List DumpLine :=
  match rows with
  | [] => printZeroRun run false
  | [last] => printZeroRun run (last.word == 0#32) ++ [.row last]
  | r :: next :: rest =>
    if r.word = 0#32 then skipRuns (run ++ [r]) (next :: rest)
    else printZeroRun run false ++ .row r :: skipRuns [] (next :: rest)

/-- The lines of a dump (R67). -/
def dumpLines (skipZeroRuns : Bool) (rows : List MemRow) : List DumpLine :=
  if skipZeroRuns then skipRuns [] rows else rows.map .row

/-- MEM.DUMP, R67. -/
def execMemDump (m : MemId) (skipZeroRuns : Bool) (s : State) : Outcome :=
  respond s (.memDump (dumpLines skipZeroRuns (memRows (s.spec m) (s.mem m))))

end Sys2Proof.Machine
end

