-- ==== Sys2Proof/Machine/RegFile.lean ====
section
/-! DEFINITION. The Register File commands: RF.READ, RF.WRITE, RF.DUMP (R56 to R58). -/

namespace Sys2Proof.Machine

/-- RF.READ, R56. -/
def execRfRead (regno : Int) (s : State) : Outcome :=
  match regIndex regno with
  | some r => respond s (.word (s.readReg r))
  | none => raiseFailure (.regOutOfRange regno)

/-- RF.WRITE, R57: the range check comes before the register-0 test (R102). -/
def execRfWrite (regno value : Int) (s : State) : Outcome :=
  match regIndex regno with
  | some r => respond (s.writeReg r (trunc32 value)) .none
  | none => raiseFailure (.regOutOfRange regno)

/-- R15: the symbolic name of each register. PRESUMED (notes/assumptions/18.md): the standard RISC-V assignment. -/
def regNames : List RegName :=
  [.zero, .ra, .sp, .gp, .tp, .t0, .t1, .t2] ++ [.s0, .s1, .a0, .a1, .a2, .a3, .a4, .a5] ++
  [.a6, .a7, .s2, .s3, .s4, .s5, .s6, .s7] ++ [.s8, .s9, .s10, .s11, .t3, .t4, .t5, .t6]

/-- The symbolic name of register `r`. -/
def regName (r : Fin 32) : RegName := regNames.getD r .zero

/-- The entry of register `r` in the dump. -/
def regEntry (s : State) (r : Fin 32) : RegEntry := ⟨regName r, r, s.readReg r⟩

/-- RF.DUMP, R58: one entry for each register, 0 to 31. -/
def execRfDump (s : State) : Outcome :=
  respond s (.regDump ((List.finRange 32).map (regEntry s)))

end Sys2Proof.Machine
end

