-- ==== Sys2Proof/Machine/Dispatch.lean ====
section
/-! DEFINITION. The meaning of every command, one arm each. -/

namespace Sys2Proof.Machine

def exec (i : Instr) (s : State) : Host.Outcome State Fault Refusal :=
  match i with
  | .add a b => Sys2Proof.Machine.execAdd a b s
  | .sub a b => Sys2Proof.Machine.execSub a b s
  | .and a b => Sys2Proof.Machine.execAnd a b s
  | .or a b => Sys2Proof.Machine.execOr a b s
  | .xor a b => Sys2Proof.Machine.execXor a b s
  | .slt a b => Sys2Proof.Machine.execSlt a b s
  | .sltu a b => Sys2Proof.Machine.execSltu a b s
  | .sll a b => Sys2Proof.Machine.execSll a b s
  | .sra a b => Sys2Proof.Machine.execSra a b s
  | .srl a b => Sys2Proof.Machine.execSrl a b s
  | .copy1 a b => Sys2Proof.Machine.execCopy1 a b s
  | .copy2 a b => Sys2Proof.Machine.execCopy2 a b s
  | .seq a b => Sys2Proof.Machine.execSeq a b s
  | .mul a b => Sys2Proof.Machine.execMul a b s
  | .vunpack a b => Sys2Proof.Machine.execVunpack a b s
  | .vpack a b => Sys2Proof.Machine.execVpack a b s
  | .vbcast a b => Sys2Proof.Machine.execVbcast a b s
  | .vaddi a b => Sys2Proof.Machine.execVaddi a b s
  | .vadd a b => Sys2Proof.Machine.execVadd a b s
  | .vsub a b => Sys2Proof.Machine.execVsub a b s
  | .vmul a b => Sys2Proof.Machine.execVmul a b s
  | .aluNone fn a b => Sys2Proof.Machine.execAluNone fn a b s
  | .adder a b => Sys2Proof.Machine.execAdder a b s
  | .rfRead regno => Sys2Proof.Machine.execRfRead regno s
  | .rfWrite regno value => Sys2Proof.Machine.execRfWrite regno value s
  | .memNop m address data fn => Sys2Proof.Machine.execMemNop m address data fn s
  | .memRead m address data => Sys2Proof.Machine.execMemRead m address data s
  | .memWrite m address data => Sys2Proof.Machine.execMemWrite m address data s
  | .memBadfn m address data fn => Sys2Proof.Machine.execMemBadfn m address data fn s
  | .copyTo m address bytes => Sys2Proof.Machine.execCopyTo m address bytes s
  | .copyFrom m address length => Sys2Proof.Machine.execCopyFrom m address length s
  | .memDump m skip => Sys2Proof.Machine.execMemDump m skip s
  | .rfDump => Sys2Proof.Machine.execRfDump s

end Sys2Proof.Machine
end

