-- ==== Sys2Proof/WellFormed.lean ====
section
/-! DEFINITION. Which terms of `Instr` are commands: ALU.NONE and MEM.BADFN carry the selector they were
spelled with, and that selector must be one the code tables leave unassigned (R46, R48). -/

namespace Sys2Proof

/-- Whether R45 assigns the ALU selector value to one of the 21 operations. -/
def aluAssigned (fn : Nat) : Bool := decide (1 ≤ fn) && decide (fn ≤ 21)

/-- Whether R48 assigns the Memory selector value to read (0) or write (1). -/
def memAssigned (fn : Nat) : Bool := decide (fn ≤ 1)

/-- A command whose selector, where it carries one, belongs to its mnemonic. -/
def wellFormed : Instr → Bool
  | .add _ _ => true
  | .sub _ _ => true
  | .and _ _ => true
  | .or _ _ => true
  | .xor _ _ => true
  | .slt _ _ => true
  | .sltu _ _ => true
  | .sll _ _ => true
  | .sra _ _ => true
  | .srl _ _ => true
  | .copy1 _ _ => true
  | .copy2 _ _ => true
  | .seq _ _ => true
  | .mul _ _ => true
  | .vunpack _ _ => true
  | .vpack _ _ => true
  | .vbcast _ _ => true
  | .vaddi _ _ => true
  | .vadd _ _ => true
  | .vsub _ _ => true
  | .vmul _ _ => true
  | .aluNone fn _ _ => !aluAssigned fn
  | .adder _ _ => true
  | .rfRead _ => true
  | .rfWrite _ _ => true
  | .memNop _ _ _ _ => true
  | .memRead _ _ _ => true
  | .memWrite _ _ _ => true
  | .memBadfn _ _ _ fn => !memAssigned fn
  | .copyTo _ _ _ => true
  | .copyFrom _ _ _ => true
  | .memDump _ _ => true
  | .rfDump => true

end Sys2Proof
end

