-- ==== Sys2Proof/Decode.lean ====
section
/-! DEFINITION. From port values to commands and back (R43 to R51). Decoding is total: every input is a
command, or names why it is none. -/

namespace Sys2Proof

/-- Why an input of the driver is no command of the block. -/
inductive NoCommand where
  /-- RFWR with the write enable 0: no write is invoked (R49). Safe: nothing happens in the hardware either. -/
  | writeDisabled
  /-- A cycle mark of the driver (R55, R111). Safe: a mark is no command. -/
  | cycleMark
  deriving DecidableEq, Repr

/-- What an input spells. -/
inductive Decoded where
  | command (i : Instr)
  | noCommand (why : NoCommand)
  deriving DecidableEq, Repr

/-- R45, the whole map of the ALU selector; R46 for every value it does not assign, also those wider than
five bits (R44). -/
def decodeAlu (fn : Nat) (a b : Word) : Instr :=
  match fn with
  | 1 => .add a b
  | 2 => .sub a b
  | 3 => .and a b
  | 4 => .or a b
  | 5 => .xor a b
  | 6 => .slt a b
  | 7 => .sltu a b
  | 8 => .sll a b
  | 9 => .sra a b
  | 10 => .srl a b
  | 11 => .copy1 a b
  | 12 => .copy2 a b
  | 13 => .seq a b
  | 14 => .mul a b
  | 15 => .vunpack a b
  | 16 => .vpack a b
  | 17 => .vbcast a b
  | 18 => .vaddi a b
  | 19 => .vadd a b
  | 20 => .vsub a b
  | 21 => .vmul a b
  | other => .aluNone other a b

/-- R48: `valid` decides first, the selector second. -/
def decodeAccess (m : MemId) (valid : Bool) (address : Word) (data : Int) (fn : Nat) : Instr :=
  match valid with
  | false => .memNop m address data fn
  | true =>
    match fn with
    | 0 => .memRead m address data
    | 1 => .memWrite m address data
    | other => .memBadfn m address data other

/-- `ADDER_DEFAULT_B` (R6, R50): the second operand of the Adder when the caller gives none. -/
def adderDefaultB : Word := 4#32

/-- R43: the command that the port values spell. -/
def decode : Input → Decoded
  | .alufn fn a b => .command (decodeAlu fn a b)
  | .adder a b => .command (.adder a (b.getD adderDefaultB))
  | .rfrd regno => .command (.rfRead regno)
  | .rfwr true regno wdata => .command (.rfWrite regno wdata)
  | .rfwr false _ _ => .noCommand .writeDisabled
  | .memacc m valid address data fn => .command (decodeAccess m valid address data fn)
  | .copyTo m address bytes => .command (.copyTo m address bytes)
  | .copyFrom m address length => .command (.copyFrom m address length)
  | .memDump m skip => .command (.memDump m skip)
  | .rfDump => .command .rfDump
  | .cycle => .noCommand .cycleMark

/-- The port values of a command, from the code tables of R45 and R48. The Adder's second operand is always
supplied: `ADDER a` and `ADDER a, 4` are the same command (R50). -/
def encode : Instr → Input
  | .add a b => .alufn 1 a b
  | .sub a b => .alufn 2 a b
  | .and a b => .alufn 3 a b
  | .or a b => .alufn 4 a b
  | .xor a b => .alufn 5 a b
  | .slt a b => .alufn 6 a b
  | .sltu a b => .alufn 7 a b
  | .sll a b => .alufn 8 a b
  | .sra a b => .alufn 9 a b
  | .srl a b => .alufn 10 a b
  | .copy1 a b => .alufn 11 a b
  | .copy2 a b => .alufn 12 a b
  | .seq a b => .alufn 13 a b
  | .mul a b => .alufn 14 a b
  | .vunpack a b => .alufn 15 a b
  | .vpack a b => .alufn 16 a b
  | .vbcast a b => .alufn 17 a b
  | .vaddi a b => .alufn 18 a b
  | .vadd a b => .alufn 19 a b
  | .vsub a b => .alufn 20 a b
  | .vmul a b => .alufn 21 a b
  | .aluNone fn a b => .alufn fn a b
  | .adder a b => .adder a (some b)
  | .rfRead regno => .rfrd regno
  | .rfWrite regno value => .rfwr true regno value
  | .memNop m address data fn => .memacc m false address data fn
  | .memRead m address data => .memacc m true address data 0
  | .memWrite m address data => .memacc m true address data 1
  | .memBadfn m address data fn => .memacc m true address data fn
  | .copyTo m address bytes => .copyTo m address bytes
  | .copyFrom m address length => .copyFrom m address length
  | .memDump m skip => .memDump m skip
  | .rfDump => .rfDump

/-- An input with the Adder's default written out (R50); every other input is unchanged. -/
def Input.explicit : Input → Input
  | .adder a b => .adder a (some (b.getD adderDefaultB))
  | .alufn fn a b => .alufn fn a b
  | .rfrd regno => .rfrd regno
  | .rfwr wen regno wdata => .rfwr wen regno wdata
  | .memacc m valid address data fn => .memacc m valid address data fn
  | .copyTo m address bytes => .copyTo m address bytes
  | .copyFrom m address length => .copyFrom m address length
  | .memDump m skip => .memDump m skip
  | .rfDump => .rfDump
  | .cycle => .cycle

/-- The port values of a key of `spec/opcode_table.json`, every operand port zero. The table's keys are
numbers within one format: 5 bits for ALUFN, 3 bits `valid, fn[1], fn[0]` for MEMACC, 1 bit for RFWR, none
for ADDER, RFRD and HOST. A width of whole bytes does not say which format a key is of; such a key is
read as an ALUFN selector. DESIGN CHOICE (notes/assumptions/19.md). -/
def tableInput (nbits w : Nat) : Input :=
  match nbits with
  | 0 => .adder 0#32 (some 0#32)
  | 1 => .rfwr (w % 2 == 1) 0 0
  | 3 => .memacc .dmem (w / 4 % 2 == 1) 0#32 0 (w % 4)
  | n => .alufn (w % 2 ^ n) 0#32 0#32

/-- The command that the decoder reads from a key of the opcode table. -/
def decodeTableWord (nbits w : Nat) : Option Instr :=
  match decode (tableInput nbits w) with
  | .command i => some i
  | .noCommand _ => none

end Sys2Proof
end

