-- ==== Sys2Proof/Machine/Fetch.lean ====
section
/-! DEFINITION. Where the next command comes from. The block has no program counter (R17): the driver and the host
apply port values one at a time (R5, R38), and the model holds those still to come in `State.input`. -/

namespace Sys2Proof.Machine

/-- The next input and the state once it is taken, if one is pending. -/
def fetch (s : State) : Option (Input × State) :=
  match s.input with
  | [] => none
  | i :: rest => some (i, s.withInput rest)

/-- `s` with an input applied before all those pending. -/
def present (s : State) (i : Input) : State := s.withInput (i :: s.input)

end Sys2Proof.Machine
end

