-- ==== Sys2Proof/Machine/Step.lean ====
section
/-! DEFINITION. One step of the machine: the next input is taken and, if it spells a command, the command is carried
out as one indivisible operation (R23, R38). -/

namespace Sys2Proof.Machine

/-- One step. Where nothing is pending, or the input spells no command, nothing happens in the block (R101). -/
def step (s : State) : Host.Outcome State Fault Refusal :=
  match fetch s with
  | none => idle s
  | some (i, s') =>
    match decode i with
    | .command c => exec c s'
    | .noCommand _ => idle s'

/-- `s` with the command that an opcode-table key spells as the very next input. -/
def State.withFetchWord (s : State) (nbits w : Nat) : State := present s (tableInput nbits w)

end Sys2Proof.Machine
end

