-- ==== Sys2Proof/Safety.lean ====
section
/-! DEFINITION. What a good state is, what a safe run is, and the few words that statements about runs use. -/

namespace Sys2Proof.Safety

open Sys2Proof.Machine

/-- The machine's invariant: the configuration meets R22; both memories are in canonical form and list only
addresses of their own range (R21); the unread cell of register 0 is 0 (R14). -/
def inv (s : State) : Bool :=
  s.config.valid && s.imem.wf && s.dmem.wf && Memory.within s.config.imem s.imem &&
    Memory.within s.config.dmem s.dmem && s.regs[0] == 0#32

/-- `n` steps, stopping where a step does not answer a next state. -/
def run : Nat → State → Outcome
  | 0, s => .next s
  | n + 1, s =>
    match step s with
    | .next t => run n t
    | .fault f => .fault f
    | .refused r => .refused r

/-- The result word of a command at a state, where it answers one. -/
def resultWord (i : Instr) (s : State) : Option Word :=
  match exec i s with
  | .next t =>
    match t.output with
    | .word w => some w
    | _ => none
  | _ => none

/-- The commands of the ALU and of the Adder (R11). -/
def isPure : Instr → Bool
  | .add _ _ | .sub _ _ | .and _ _ | .or _ _ | .xor _ _ | .slt _ _ | .sltu _ _ | .sll _ _ | .sra _ _
  | .srl _ _ | .copy1 _ _ | .copy2 _ _ | .seq _ _ | .mul _ _ => true
  | .vunpack _ _ | .vpack _ _ | .vbcast _ _ | .vaddi _ _ | .vadd _ _ | .vsub _ _ | .vmul _ _ => true
  | .aluNone _ _ _ | .adder _ _ => true
  | .rfRead _ | .rfWrite _ _ | .memNop _ _ _ _ | .memRead _ _ _ | .memWrite _ _ _ | .memBadfn _ _ _ _ => false
  | .copyTo _ _ _ | .copyFrom _ _ _ | .memDump _ _ | .rfDump => false

/-- The instance a command stores to, if it is one that stores: MEM.WRITE (R63) or COPY_TO (R65). -/
def storesTo : Instr → Option MemId
  | .memWrite m _ _ => some m
  | .copyTo m _ _ => some m
  | _ => none

/-- Whether a command is RF.WRITE, the one writer of the Register File (R16). -/
def writesRegister : Instr → Bool
  | .rfWrite _ _ => true
  | _ => false

/-- Whether R95 lets a command at a state raise a failure: a register number outside 0 .. 31 (R96), a byte range
not contained in the instance (R98). -/
def raises (s : State) : Instr → Option Fault
  | .rfRead r => if r < 0 ∨ 32 ≤ r then some (.regOutOfRange r) else none
  | .rfWrite r _ => if r < 0 ∨ 32 ≤ r then some (.regOutOfRange r) else none
  | .copyTo m a bs =>
    if a < (s.spec m).base ∨ (s.spec m).base + (s.spec m).size < a + bs.length then
      some (.rangeError a bs.length)
    else none
  | .copyFrom m a n =>
    if a < (s.spec m).base ∨ (s.spec m).base + (s.spec m).size < a + n then some (.rangeError a n) else none
  | _ => none

/-- Lane `k` of a word as a number, from its bits: `(w >> 10k) mod 1024` (R85). -/
def laneNat (w : Word) (k : Nat) : Nat := w.toNat / 2 ^ (10 * k) % 1024

/-- Channel byte `k` of a word as a number: `(w >> 8k) mod 256` (R85). -/
def channelNat (w : Word) (k : Nat) : Nat := w.toNat / 2 ^ (8 * k) % 256

/-- R60's address check, on numbers. -/
def addressPasses (c : MemSpec) (address : Nat) : Prop :=
  c.base ≤ address ∧ address < c.base + c.size ∧ address % c.granularity = 0

/-- R22, said of addresses: no address lies in both ranges, and each instance has granularity 4, base and size
multiples of 4, a size above 0, and a range that ends at 2^32 at the latest. -/
def meetsConstraints (c : Config) : Prop :=
  (∀ a, ¬ ((c.imem.base ≤ a ∧ a < c.imem.base + c.imem.size) ∧
      (c.dmem.base ≤ a ∧ a < c.dmem.base + c.dmem.size))) ∧
    (c.imem.granularity = 4 ∧ c.dmem.granularity = 4) ∧
    (c.imem.base % 4 = 0 ∧ c.imem.size % 4 = 0 ∧ 0 < c.imem.size ∧ c.imem.base + c.imem.size ≤ 2 ^ 32) ∧
    (c.dmem.base % 4 = 0 ∧ c.dmem.size % 4 = 0 ∧ 0 < c.dmem.size ∧ c.dmem.base + c.dmem.size ≤ 2 ^ 32)

/-- The value of the little-endian word at address `a` of a memory, from its four bytes (R30). -/
def wordNat (mem : Memory) (a : Nat) : Nat :=
  (mem.readByte a).toNat + 2 ^ 8 * (mem.readByte (a + 1)).toNat + 2 ^ 16 * (mem.readByte (a + 2)).toNat +
    2 ^ 24 * (mem.readByte (a + 3)).toNat

/-- The byte that a command stores at address `x` of instance `m`, if it stores one there (R63, R65): byte
`x - address` of the datum, little-endian, or of the sequence of bytes. -/
def storedByte (s : State) (m : MemId) (x : Nat) : Instr → Option Byte
  | .memWrite m' address data =>
    if m' = m ∧ addrOk (s.spec m') address = true ∧ address.toNat ≤ x ∧ x < address.toNat + 4 then
      some (BitVec.ofInt 8 (data / 2 ^ (8 * (x - address.toNat))))
    else none
  | .copyTo m' address bytes => if m' = m ∧ address ≤ x then bytes[x - address]? else none
  | _ => none

/-- The byte at address `x` of instance `m` after some inputs, if it was `b` before: that of the latest store
that covers the address (R38 (c)). -/
def latestByte (s : State) (m : MemId) (x : Nat) : List Input → Byte → Byte
  | [], b => b
  | i :: rest, b =>
    match decode i with
    | .command c => latestByte s m x rest ((storedByte s m x c).getD b)
    | .noCommand _ => latestByte s m x rest b

/-- What R111, R112 and R109 ask of the driver and the host, on the inputs still to come. `wrote`: the cycle has
had its RF.WRITE, so no RF.READ and no second RF.WRITE may follow; `busy`: the driver has begun the cycle, so
no host command may come before the next mark. -/
def cycleOk (wrote busy : Bool) : List Input → Bool
  | [] => true
  | .cycle :: rest => cycleOk false false rest
  | .rfrd _ :: rest => !wrote && cycleOk wrote true rest
  | .rfwr true _ _ :: rest => !wrote && cycleOk true true rest
  | .rfwr false _ _ :: rest => cycleOk wrote busy rest
  | .alufn _ _ _ :: rest => cycleOk wrote true rest
  | .adder _ _ :: rest => cycleOk wrote true rest
  | .memacc _ _ _ _ _ :: rest => cycleOk wrote true rest
  | .copyTo _ _ _ :: rest => !busy && cycleOk wrote busy rest
  | .copyFrom _ _ _ :: rest => !busy && cycleOk wrote busy rest
  | .memDump _ _ :: rest => !busy && cycleOk wrote busy rest
  | .rfDump :: rest => !busy && cycleOk wrote busy rest

/-- A sequence of inputs that keeps the caller's duties, from the beginning of a cycle. -/
def disciplined (l : List Input) : Bool := cycleOk false false l

/-- A step is safe when it answers and does not report an access failure: R97 calls taking a failed access for a
fault of the run the conservative reading of what the driver does with it. -/
def safeOutcome : Outcome → Bool
  | .next t =>
    match t.output with
    | .access _ ok => ok
    | _ => true
  | .fault _ => false
  | .refused _ => false

end Sys2Proof.Safety
end

