-- ==== Sys2Proof/Certificates/Slice0/Obligations.lean ====
section
/-! DEFINITION. The statements about the machine, from the numbered rules of the spec. Each docstring names the rule
it formalises; where a clause rests on a decision of the spec's own (D<n>) or of the model's (an entry of
notes/assumptions), the docstring says so. -/

open Sys2Proof Sys2Proof.Machine Sys2Proof.Safety

/-! ### The step, decoding and encoding -/

/-- A step carries out the command that the first pending input spells, on the state without that input (R5,
R38; the pending inputs are the model's, notes/assumptions/1.md). -/
def Obligations.StepIssuesDecodedCommand : Prop :=
  ∀ (s : State) (x : Input) (rest : List Input) (i : Instr),
    s.input = x :: rest → decode x = .command i → step s = exec i (s.withInput rest)

/-- The model's choice (DESIGN CHOICE, notes/assumptions/24.md): a step with no pending input, or with one that spells
no command (a write enable of 0, R49; a cycle mark, R55), answers a next state in which only that input is gone and
the outputs are empty. The list of pending inputs and the output field are the model's own (1.md, 2.md). The spec's
part is that nothing in the block happens but as the direct effect of a command (R101). -/
def Obligations.NoCommandChangesNothing : Prop :=
  (∀ s : State, s.input = [] → step s = .next (s.withOutput .none)) ∧
  (∀ (s : State) (regno wdata : Int) (rest : List Input), s.input = .rfwr false regno wdata :: rest →
    step s = .next ((s.withInput rest).withOutput .none)) ∧
  (∀ (s : State) (rest : List Input), s.input = .cycle :: rest →
    step s = .next ((s.withInput rest).withOutput .none))

/-- Port values written out from R45, R48, R49 to R51 spell the commands they stand for, one or more of every family.
The selector numbers are the spec's decisions D3 and D4. -/
def Obligations.SampleCommandsDecode : Prop :=
  decode (.alufn 0b00001 1#32 2#32) = .command (.add 1#32 2#32) ∧
  decode (.alufn 0b01001 3#32 4#32) = .command (.sra 3#32 4#32) ∧
  decode (.alufn 0b01110 3#32 5#32) = .command (.mul 3#32 5#32) ∧
  decode (.alufn 0b10011 0x01008030#32 0x00100803#32) = .command (.vadd 0x01008030#32 0x00100803#32) ∧
  decode (.alufn 0b10110 7#32 8#32) = .command (.aluNone 22 7#32 8#32) ∧
  decode (.adder 0x1000#32 none) = .command (.adder 0x1000#32 4#32) ∧
  decode (.rfrd 5) = .command (.rfRead 5) ∧
  decode (.rfwr true 7 9) = .command (.rfWrite 7 9) ∧
  decode (.memacc .dmem true 0x1000#32 0 0b00) = .command (.memRead .dmem 0x1000#32 0) ∧
  decode (.memacc .imem true 0x1004#32 5 0b01) = .command (.memWrite .imem 0x1004#32 5) ∧
  decode (.memacc .dmem true 0x1000#32 0 0b10) = .command (.memBadfn .dmem 0x1000#32 0 2) ∧
  decode (.memacc .dmem false 0x1002#32 6 0b01) = .command (.memNop .dmem 0x1002#32 6 1) ∧
  decode (.copyFrom .imem 0x10 4) = .command (.copyFrom .imem 0x10 4)

/-- Decoding the port values of a well-formed command gives the command back, with every operand at every value
(R45, R48 to R51). -/
def Obligations.DecodeInvertsEncode : Prop :=
  ∀ i : Instr, wellFormed i = true → decode (encode i) = .command i

/-- What an input spells is a well-formed command, and encoding that command gives the input back, with the
Adder's second operand written out (R50). -/
def Obligations.EncodeInvertsDecode : Prop :=
  ∀ (x : Input) (i : Instr), decode x = .command i → wellFormed i = true ∧ encode i = x.explicit

/-! ### The ALU: scalar commands -/

/-- R11: an ALU or Adder command answers with a word that depends on nothing but the command, at every state, and
changes nothing. -/
def Obligations.AluAndAdderArePure : Prop :=
  ∀ i : Instr, isPure i = true → ∃ w : Word, ∀ s : State, exec i s = .next (s.withOutput (.word w))

/-- R70: ADD answers with the sum modulo 2^32, the same bits for the unsigned and the signed reading of the operands,
and changes nothing else. -/
def Obligations.AddWraps : Prop :=
  ∀ (a b : Word) (s : State),
    exec (.add a b) s = .next (s.withOutput (.word (BitVec.ofNat 32 (a.toNat + b.toNat)))) ∧
    exec (.add a b) s = .next (s.withOutput (.word (BitVec.ofInt 32 (a.toInt + b.toInt))))

/-- R71: SUB answers with the difference modulo 2^32 and changes nothing else. That operand 2 is subtracted from operand 1 is the spec's decision D6 (notes/assumptions/8.md). -/
def Obligations.SubtractWraps : Prop :=
  ∀ (a b : Word) (s : State),
    exec (.sub a b) s = .next (s.withOutput (.word (BitVec.ofInt 32 ((a.toNat : Int) - b.toNat))))

/-- R72, R73, R74: each result bit of AND, OR and XOR is the operation on the operands' bits at its place, and nothing
else changes. -/
def Obligations.BitwiseLogicIsPerBit : Prop :=
  ∀ (a b : Word) (s : State),
    (∃ w : Word, exec (.and a b) s = .next (s.withOutput (.word w)) ∧
      ∀ i, i < 32 → w.getLsbD i = (a.getLsbD i && b.getLsbD i)) ∧
    (∃ w : Word, exec (.or a b) s = .next (s.withOutput (.word w)) ∧
      ∀ i, i < 32 → w.getLsbD i = (a.getLsbD i || b.getLsbD i)) ∧
    (∃ w : Word, exec (.xor a b) s = .next (s.withOutput (.word w)) ∧
      ∀ i, i < 32 → w.getLsbD i = (a.getLsbD i ^^ b.getLsbD i))

/-- R75, R76: SLT compares the signed values, SLTU the unsigned ones; the answer is 1 or 0 and nothing else changes. The 1 and 0 are the spec's decision D7, the order of the operands
its decision D6 (notes/assumptions/8.md, 9.md). -/
def Obligations.LessThanComparesValues : Prop :=
  ∀ (a b : Word) (s : State),
    exec (.slt a b) s = .next (s.withOutput (.word (if a.toInt < b.toInt then 1#32 else 0#32))) ∧
    exec (.sltu a b) s = .next (s.withOutput (.word (if a.toNat < b.toNat then 1#32 else 0#32)))

/-- R77, R79: SLL multiplies by, SRL divides by, 2 to the power of `b[4:0]`, modulo 2^32, and nothing else changes. That operand 2 is the amount is the spec's decision D6
(notes/assumptions/8.md). -/
def Obligations.LogicalShiftsScaleByPowerOfTwo : Prop :=
  ∀ (a b : Word) (s : State),
    exec (.sll a b) s = .next (s.withOutput (.word (BitVec.ofNat 32 (a.toNat * 2 ^ (b.toNat % 32))))) ∧
    exec (.srl a b) s = .next (s.withOutput (.word (BitVec.ofNat 32 (a.toNat / 2 ^ (b.toNat % 32)))))

/-- R78, SRA in both of its forms: the signed value divided with rounding toward minus infinity, and bit by bit. That
operand 2 is the amount is the spec's decision D6 (notes/assumptions/8.md). -/
def Obligations.ArithmeticShiftKeepsSign : Prop :=
  ∀ (a b : Word) (s : State),
    ∃ w : Word, exec (.sra a b) s = .next (s.withOutput (.word w)) ∧
      w = BitVec.ofInt 32 (Int.fdiv a.toInt (2 ^ (b.toNat % 32))) ∧
      ∀ i, i < 32 → w.getLsbD i = if i + b.toNat % 32 ≤ 31 then a.getLsbD (i + b.toNat % 32) else a.getLsbD 31

/-- R80, R81: COPY1 answers with operand 1, COPY2 with operand 2, all 32 bits unchanged, and nothing else changes. -/
def Obligations.PassThroughCopiesOperand : Prop :=
  ∀ (a b : Word) (s : State),
    exec (.copy1 a b) s = .next (s.withOutput (.word a)) ∧
    exec (.copy2 a b) s = .next (s.withOutput (.word b))

/-- R82: SEQ answers with 1 if all 32 bits of the operands are equal, else with 0, and changes nothing else. -/
def Obligations.EqualityTestComparesAllBits : Prop :=
  ∀ (a b : Word) (s : State),
    (a = b → exec (.seq a b) s = .next (s.withOutput (.word 1#32))) ∧
    (a ≠ b → exec (.seq a b) s = .next (s.withOutput (.word 0#32)))

/-- R83: MUL answers with the low 32 bits of the product, the same for both readings of the operands, and changes
nothing else. -/
def Obligations.MultiplyKeepsLowHalf : Prop :=
  ∀ (a b : Word) (s : State),
    exec (.mul a b) s = .next (s.withOutput (.word (BitVec.ofNat 32 (a.toNat * b.toNat)))) ∧
    exec (.mul a b) s = .next (s.withOutput (.word (BitVec.ofInt 32 (a.toInt * b.toInt))))

/-- R84: ALU.NONE answers 0, and nothing else happens. The second clause says so from the port values: that the
unassigned selectors are 0 and those from 22 on rests on the numbers of the spec's decision D3 (DESIGN CHOICE,
notes/assumptions/7.md), and that a selector may be wider than five bits is the model's choice (4.md). -/
def Obligations.UnassignedSelectorYieldsZero : Prop :=
  (∀ (fn : Nat) (a b : Word) (s : State), exec (.aluNone fn a b) s = .next (s.withOutput (.word 0#32))) ∧
  (∀ (fn : Nat) (a b : Word) (s : State) (rest : List Input), fn = 0 ∨ 22 ≤ fn →
    s.input = .alufn fn a b :: rest → step s = .next ((s.withInput rest).withOutput (.word 0#32)))

/-! ### The Adder -/

/-- R68: ADDER answers with the sum modulo 2^32, the second operand 4 when the caller gives none, and the same function as ADD. -/
def Obligations.AdderWrapsWithDefaultFour : Prop :=
  (∀ (a b : Word) (s : State),
    exec (.adder a b) s = .next (s.withOutput (.word (BitVec.ofNat 32 (a.toNat + b.toNat)))) ∧
    exec (.adder a b) s = exec (.add a b) s) ∧
  (∀ (a : Word) (s : State) (rest : List Input), s.input = .adder a none :: rest →
    step s = .next ((s.withInput rest).withOutput (.word (BitVec.ofNat 32 (a.toNat + 4)))))

/-! ### The ALU: vector commands -/

/-- R87, VUNPACK in numbers: the three channel bytes at bit offsets 0, 10, 20. That `a[31:24]` and `b` have no effect and bits
31:30 are 0 is the spec's decision D10 (notes/assumptions/12.md). -/
def Obligations.UnpackSpreadsChannels : Prop :=
  ∀ (a b : Word) (s : State), ∃ w : Word, exec (.vunpack a b) s = .next (s.withOutput (.word w)) ∧
    w.toNat = channelNat a 0 + 2 ^ 10 * channelNat a 1 + 2 ^ 20 * channelNat a 2

/-- R88, VPACK in numbers: each lane clamped to 255 at its channel, the tag at bits 31:24. The tag's placement is the spec's
decision D8, the ignored bits its decision D10 (notes/assumptions/10.md, 12.md). -/
def Obligations.PackSaturatesChannels : Prop :=
  ∀ (a b : Word) (s : State), ∃ w : Word, exec (.vpack a b) s = .next (s.withOutput (.word w)) ∧
    w.toNat = min (laneNat a 0) 255 + 2 ^ 8 * min (laneNat a 1) 255 + 2 ^ 16 * min (laneNat a 2) 255 +
      2 ^ 24 * (b.toNat % 256)

/-- R89, VBCAST in numbers: the low byte of `a` in all three lanes. The ignored bits are the spec's decision D10 (notes/assumptions/12.md). -/
def Obligations.BroadcastReplicatesByte : Prop :=
  ∀ (a b : Word) (s : State), ∃ w : Word, exec (.vbcast a b) s = .next (s.withOutput (.word w)) ∧
    w.toNat = a.toNat % 256 * (1 + 2 ^ 10 + 2 ^ 20)

/-- R91, R92, VADD and VSUB in numbers: the lanes added and subtracted modulo 1024, bits 31:30 of the result 0 (the spec's
decision D10, notes/assumptions/12.md). -/
def Obligations.LanesAddAndSubtractModulo : Prop :=
  ∀ (a b : Word) (s : State),
    (∃ w : Word, exec (.vadd a b) s = .next (s.withOutput (.word w)) ∧ w.toNat < 2 ^ 30 ∧
      ∀ k, k < 3 → laneNat w k = (laneNat a k + laneNat b k) % 1024) ∧
    (∃ w : Word, exec (.vsub a b) s = .next (s.withOutput (.word w)) ∧ w.toNat < 2 ^ 30 ∧
      ∀ k, k < 3 → (laneNat w k : Int) = ((laneNat a k : Int) - laneNat b k) % 1024)

/-- R90, VADDI in numbers: the low byte of `b` added to every lane modulo 1024. For an immediate above 255 the low 8 bits are the spec's decision D9; bits 31:30 its decision
D10 (notes/assumptions/11.md, 12.md). -/
def Obligations.ImmediateAddsToEveryLane : Prop :=
  ∀ (a b : Word) (s : State),
    ∃ w : Word, exec (.vaddi a b) s = .next (s.withOutput (.word w)) ∧ w.toNat < 2 ^ 30 ∧
      ∀ k, k < 3 → laneNat w k = (laneNat a k + b.toNat % 256) % 1024

/-- R93, VMUL in numbers, in the rule's second form: each lane is `((p + 0x80) >> 8) mod 1024` of the product `p` of the lanes. The
second form is the spec's derivation, bits 31:30 its decision D10 (notes/assumptions/12.md). -/
def Obligations.LanesMultiplyRoundingHalfUp : Prop :=
  ∀ (a b : Word) (s : State),
    ∃ w : Word, exec (.vmul a b) s = .next (s.withOutput (.word w)) ∧ w.toNat < 2 ^ 30 ∧
      ∀ k, k < 3 → laneNat w k = (laneNat a k * laneNat b k + 128) / 256 % 1024

/-- R86: lane `k` of the result of VADDI, VADD, VSUB and VMUL is a function of lane `k` of the operands (and of the
immediate) and of nothing else. -/
def Obligations.LanesDoNotInterfere : Prop :=
  ∀ (k : Nat) (a a' b b' : Word) (s s' : State), k < 3 → laneNat a k = laneNat a' k →
    (∃ w w', resultWord (.vaddi a b) s = some w ∧ resultWord (.vaddi a' b) s' = some w' ∧
      laneNat w k = laneNat w' k) ∧
    (laneNat b k = laneNat b' k →
      (∃ w w', resultWord (.vadd a b) s = some w ∧ resultWord (.vadd a' b') s' = some w' ∧
        laneNat w k = laneNat w' k) ∧
      (∃ w w', resultWord (.vsub a b) s = some w ∧ resultWord (.vsub a' b') s' = some w' ∧
        laneNat w k = laneNat w' k) ∧
      (∃ w w', resultWord (.vmul a b) s = some w ∧ resultWord (.vmul a' b') s' = some w' ∧
        laneNat w k = laneNat w' k))

/-- R94 (a): packing what was unpacked gives the three channel bytes back under the tag. The spec derives it from
R87 and R88 (D8, D10: notes/assumptions/10.md, 12.md). -/
def Obligations.PackAfterUnpackKeepsChannels : Prop :=
  ∀ (w x tag : Word) (s s' : State), ∃ u v : Word,
    resultWord (.vunpack w x) s = some u ∧ resultWord (.vpack u tag) s' = some v ∧
    v.toNat = tag.toNat % 256 * 2 ^ 24 + w.toNat % 2 ^ 24

/-- R94 (b): the source's end-to-end pixel: `0x00102030` unpacked is `0x01008030`, with 5 added to every lane
`0x01509435`, packed with tag `0xFF` `0xFF152535`. -/
def Obligations.EndToEndPixel : Prop :=
  ∀ (x : Word) (s : State),
    resultWord (.vunpack 0x00102030#32 x) s = some 0x01008030#32 ∧
    resultWord (.vaddi 0x01008030#32 5#32) s = some 0x01509435#32 ∧
    resultWord (.vpack 0x01509435#32 0xFF#32) s = some 0xFF152535#32

/-- The laws of `95_test_vectors.md` section 2.6 that join two vector commands: VADDI is VADD of a broadcast, VSUB
undoes VADD, `0x100` in every lane is the unit of VMUL, VADD and VMUL are commutative (D9, D10). -/
def Obligations.VectorLawsHold : Prop :=
  ∀ (w t x : Word) (s : State),
    (∃ u, resultWord (.vbcast t x) s = some u ∧ resultWord (.vaddi w t) s = resultWord (.vadd w u) s) ∧
    (∃ u, resultWord (.vadd w t) s = some u ∧
      resultWord (.vsub u t) s = some (BitVec.ofNat 32 (w.toNat % 2 ^ 30))) ∧
    resultWord (.vmul w 0x10040100#32) s = some (BitVec.ofNat 32 (w.toNat % 2 ^ 30)) ∧
    resultWord (.vadd w t) s = resultWord (.vadd t w) s ∧
    resultWord (.vmul w t) s = resultWord (.vmul t w) s

/-! ### The Register File -/

/-- R14: at every state, so after every sequence of operations, register 0 reads 0, and a write to it changes
nothing and reports nothing. -/
def Obligations.RegisterZeroIsHardWired : Prop :=
  ∀ s : State,
    exec (.rfRead 0) s = .next (s.withOutput (.word 0#32)) ∧
    ∀ v : Int, exec (.rfWrite 0 v) s = .next (s.withOutput .none)

/-- R56: RF.READ of a register number in range returns the stored word, or 0 for register 0, and changes nothing. -/
def Obligations.RegisterReadReturnsStoredWord : Prop :=
  ∀ (r : Fin 32) (s : State),
    exec (.rfRead r.val) s = .next (s.withOutput (.word (if r.val = 0 then 0#32 else s.regs[r])))

/-- R57: RF.WRITE of a register number in range stores the value modulo 2^32 in that register, unless it is register
0, and changes nothing else. -/
def Obligations.RegisterWriteStoresTruncatedValue : Prop :=
  ∀ (regno value : Int) (s : State), 0 ≤ regno → regno < 32 →
    ∃ t : State, exec (.rfWrite regno value) s = .next t ∧
      (∀ q : Fin 32, t.readReg q =
        if (q.val : Int) = regno ∧ q.val ≠ 0 then BitVec.ofInt 32 value else s.readReg q) ∧
      t.config = s.config ∧ t.imem = s.imem ∧ t.dmem = s.dmem ∧ t.input = s.input ∧ t.output = .none

/-- R56, R57 and section 8 of the source: a register written and then read gives the value modulo 2^32. -/
def Obligations.RegisterWriteThenReadReturnsValue : Prop :=
  ∀ (regno value : Int) (s : State), 1 ≤ regno → regno < 32 →
    ∃ t : State, exec (.rfWrite regno value) s = .next t ∧
      exec (.rfRead regno) t = .next (t.withOutput (.word (BitVec.ofInt 32 value)))

/-- R96: a register number outside 0 .. 31 raises `RegOutOfRange`, which records it. That a raised failure is a fault
of the step is the model's reading (notes/assumptions/5.md). -/
def Obligations.RegisterNumberOutOfRangeRaises : Prop :=
  ∀ (regno value : Int) (s : State), regno < 0 ∨ 32 ≤ regno →
    exec (.rfRead regno) s = .fault (.regOutOfRange regno) ∧
    exec (.rfWrite regno value) s = .fault (.regOutOfRange regno)

/-- R58: RF.DUMP lists register 0 to register 31 in order, each with its number and the word RF.READ gives, and
changes nothing. The names are those of the standard RISC-V assignment (R15 marks it as general knowledge:
notes/assumptions/18.md). -/
def Obligations.RegisterDumpListsAllRegisters : Prop :=
  ∀ s : State, ∃ entries : List RegEntry, exec .rfDump s = .next (s.withOutput (.regDump entries)) ∧
    entries.length = 32 ∧
    ∀ r : Fin 32, ∃ e, entries[r.val]? = some e ∧ e.regno = r.val ∧ e.value = s.readReg r ∧
      regNames[r.val]? = some e.name

/-! ### The checked path to a memory -/

/-- R60: what the address check says, and that in a valid configuration the whole word of an address that passes lies
in the instance's range (R22, the spec's decision D11: notes/assumptions/13.md). -/
def Obligations.AddressCheckCoversTheWord : Prop :=
  ∀ (s : State) (m : MemId) (address : Word),
    (addrOk (s.spec m) address = true ↔ addressPasses (s.spec m) address.toNat) ∧
    (meetsConstraints s.config → addressPasses (s.spec m) address.toNat →
      ∀ i, i < 4 → (s.spec m).base ≤ address.toNat + i ∧ address.toNat + i < (s.spec m).base + (s.spec m).size)

/-- R61: an access with `valid` false succeeds with the word 0, whatever its other ports hold, and changes nothing. -/
def Obligations.DisabledAccessSucceeds : Prop :=
  (∀ (m : MemId) (address : Word) (data : Int) (fn : Nat) (s : State),
    exec (.memNop m address data fn) s = .next (s.withOutput (.access 0#32 true))) ∧
  (∀ (m : MemId) (address : Word) (data : Int) (fn : Nat) (s : State) (rest : List Input),
    s.input = .memacc m false address data fn :: rest →
    step s = .next ((s.withInput rest).withOutput (.access 0#32 true)))

/-- R62, R30: a read whose address passes the check returns the little-endian word of the four bytes, and changes
nothing. That `data` is ignored is the spec's decision D14 (notes/assumptions/14.md). -/
def Obligations.ReadReturnsLittleEndianWord : Prop :=
  ∀ (m : MemId) (address : Word) (data : Int) (s : State), addressPasses (s.spec m) address.toNat →
    exec (.memRead m address data) s =
      .next (s.withOutput (.access (BitVec.ofNat 32 (wordNat (s.mem m) address.toNat)) true))

/-- R63, R30: a write whose address passes the check stores the four bytes of the datum modulo 2^32, lowest first, and
returns `(0, success)`; every other byte of the instance, the other instance and the registers keep their value.
The memory is in the canonical form that every step keeps. -/
def Obligations.WriteStoresLittleEndianWord : Prop :=
  ∀ (m : MemId) (address : Word) (data : Int) (s : State), (s.mem m).wf = true →
    addressPasses (s.spec m) address.toNat →
    ∃ t : State, exec (.memWrite m address data) s = .next t ∧
      (∀ i, i < 4 → (t.mem m).readByte (address.toNat + i) =
        BitVec.ofNat 8 ((BitVec.ofInt 32 data).toNat / 2 ^ (8 * i))) ∧
      (∀ x, x < address.toNat ∨ address.toNat + 4 ≤ x → (t.mem m).readByte x = (s.mem m).readByte x) ∧
      (∀ n, n ≠ m → t.mem n = s.mem n) ∧
      t.config = s.config ∧ t.regs = s.regs ∧ t.input = s.input ∧ t.output = .access 0#32 true

/-- R63 and section 8 of the source: a word written is read back. -/
def Obligations.WriteThenReadReturnsWord : Prop :=
  ∀ (m : MemId) (address : Word) (data other : Int) (s : State), (s.mem m).wf = true →
    addressPasses (s.spec m) address.toNat →
    ∃ t : State, exec (.memWrite m address data) s = .next t ∧
      exec (.memRead m address other) t = .next (t.withOutput (.access (BitVec.ofInt 32 data) true))

/-- R60, R97: a read or a write whose address fails the check returns `(0, failure)` and changes nothing. That a
failed write stores nothing is the spec's decision D14 (notes/assumptions/14.md). -/
def Obligations.FailedAccessChangesNothing : Prop :=
  ∀ (m : MemId) (address : Word) (data : Int) (s : State), ¬ addressPasses (s.spec m) address.toNat →
    exec (.memRead m address data) s = .next (s.withOutput (.access 0#32 false)) ∧
    exec (.memWrite m address data) s = .next (s.withOutput (.access 0#32 false))

/-- R64: a selector that is neither read nor write returns `(0, failure)` for every address. That it is one from 2 on
rests on the numbers of the spec's decision D4 (DESIGN CHOICE, notes/assumptions/7.md), that selectors wider than two
bits exist is the model's choice (4.md), and that a failed access changes nothing is decision D14 (14.md). -/
def Obligations.UnrecognisedFunctionFails : Prop :=
  (∀ (m : MemId) (address : Word) (data : Int) (fn : Nat) (s : State),
    exec (.memBadfn m address data fn) s = .next (s.withOutput (.access 0#32 false))) ∧
  (∀ (m : MemId) (address : Word) (data : Int) (fn : Nat) (s : State) (rest : List Input), 2 ≤ fn →
    s.input = .memacc m true address data fn :: rest →
    step s = .next ((s.withInput rest).withOutput (.access 0#32 false)))

/-- R59: the order in which an access decides, from its ports: not valid, address, read, write, any other function
(the selector numbers are the spec's decision D4; that a failed check stores nothing its decision D14). -/
def Obligations.AccessDecidesInOrder : Prop :=
  ∀ (m : MemId) (valid : Bool) (address : Word) (data : Int) (fn : Nat) (s : State) (rest : List Input),
    s.input = .memacc m valid address data fn :: rest →
    (valid = false → step s = .next ((s.withInput rest).withOutput (.access 0#32 true))) ∧
    (valid = true → ¬ addressPasses (s.spec m) address.toNat →
      step s = .next ((s.withInput rest).withOutput (.access 0#32 false))) ∧
    (valid = true → addressPasses (s.spec m) address.toNat →
      (fn = 0 → step s = .next ((s.withInput rest).withOutput
        (.access (BitVec.ofNat 32 (wordNat (s.mem m) address.toNat)) true))) ∧
      (fn = 1 → ∃ t, step s = .next t ∧ t.output = .access 0#32 true ∧ t.input = rest ∧
        ((s.mem m).wf = true → wordNat (t.mem m) address.toNat = (BitVec.ofInt 32 data).toNat)) ∧
      (2 ≤ fn → step s = .next ((s.withInput rest).withOutput (.access 0#32 false))))

/-- R97, read as a caller that takes a failed access for a fault of its run: a step that reads or writes is safe
exactly where the address passes the check; a disabled access always is, an unrecognised selector never. -/
def Obligations.AccessIsSafeExactlyWhereAddressPasses : Prop :=
  ∀ (m : MemId) (address : Word) (data : Int) (fn : Nat) (s : State),
    (safeOutcome (exec (.memRead m address data) s) = true ↔ addressPasses (s.spec m) address.toNat) ∧
    (safeOutcome (exec (.memWrite m address data) s) = true ↔ addressPasses (s.spec m) address.toNat) ∧
    safeOutcome (exec (.memNop m address data fn) s) = true ∧
    safeOutcome (exec (.memBadfn m address data fn) s) = false

/-! ### The host's path to a memory -/

/-- R65: a contained COPY_TO, of any length and alignment, stores every byte of the sequence at its address and changes
nothing else. Containment on unbounded integers is the spec's decision D15 (notes/assumptions/15.md). -/
def Obligations.CopyToStoresBytes : Prop :=
  ∀ (m : MemId) (address : Nat) (bytes : List Byte) (s : State), (s.mem m).wf = true →
    (s.spec m).base ≤ address → address + bytes.length ≤ (s.spec m).base + (s.spec m).size →
    ∃ t : State, exec (.copyTo m address bytes) s = .next t ∧
      (∀ (i : Nat) (h : i < bytes.length), (t.mem m).readByte (address + i) = bytes[i]) ∧
      (∀ x, x < address ∨ address + bytes.length ≤ x → (t.mem m).readByte x = (s.mem m).readByte x) ∧
      (∀ n, n ≠ m → t.mem n = s.mem n) ∧
      t.config = s.config ∧ t.regs = s.regs ∧ t.input = s.input ∧ t.output = .none

/-- R66: a contained COPY_FROM returns the bytes in order and changes nothing (D15: notes/assumptions/15.md). -/
def Obligations.CopyFromReturnsBytes : Prop :=
  ∀ (m : MemId) (address length : Nat) (s : State),
    (s.spec m).base ≤ address → address + length ≤ (s.spec m).base + (s.spec m).size →
    ∃ bs : List Byte, exec (.copyFrom m address length) s = .next (s.withOutput (.bytes bs)) ∧
      bs.length = length ∧ ∀ i, i < length → bs[i]? = some ((s.mem m).readByte (address + i))

/-- R65, R66, R98: a byte range that is not contained raises `RangeError`, which records address and length: no state
follows. That a raised failure is a fault of the step is the model's reading (notes/assumptions/5.md). -/
def Obligations.UncontainedRangeRaises : Prop :=
  ∀ (m : MemId) (address length : Nat) (bytes : List Byte) (s : State), bytes.length = length →
    address < (s.spec m).base ∨ (s.spec m).base + (s.spec m).size < address + length →
    exec (.copyTo m address bytes) s = .fault (.rangeError address length) ∧
    exec (.copyFrom m address length) s = .fault (.rangeError address length)

/-- R66 and section 8 of the source: COPY_TO followed by COPY_FROM over the same range gives the sequence back. -/
def Obligations.CopyFromReturnsWhatCopyToStored : Prop :=
  ∀ (m : MemId) (address : Nat) (bytes : List Byte) (s : State), (s.mem m).wf = true →
    (s.spec m).base ≤ address → address + bytes.length ≤ (s.spec m).base + (s.spec m).size →
    ∃ t : State, exec (.copyTo m address bytes) s = .next t ∧
      exec (.copyFrom m address bytes.length) t = .next (t.withOutput (.bytes bytes))

/-- R30, R37: both paths act on the same bytes, little-endian: four bytes copied in are read as the word
`b3 b2 b1 b0`, and a word written is copied out lowest byte first. -/
def Obligations.BothPathsSeeTheSameBytes : Prop :=
  ∀ (m : MemId) (address : Word) (b0 b1 b2 b3 : Byte) (data other : Int) (s : State),
    meetsConstraints s.config → (s.mem m).wf = true → addressPasses (s.spec m) address.toNat →
    (∃ t : State, exec (.copyTo m address.toNat [b0, b1, b2, b3]) s = .next t ∧
      exec (.memRead m address other) t = .next (t.withOutput (.access
        (BitVec.ofNat 32 (b0.toNat + 2 ^ 8 * b1.toNat + 2 ^ 16 * b2.toNat + 2 ^ 24 * b3.toNat)) true))) ∧
    (∃ t : State, exec (.memWrite m address data) s = .next t ∧
      exec (.copyFrom m address.toNat 4) t = .next (t.withOutput (.bytes
        [BitVec.ofInt 8 data, BitVec.ofInt 8 (data / 2 ^ 8), BitVec.ofInt 8 (data / 2 ^ 16),
          BitVec.ofInt 8 (data / 2 ^ 24)])))

/-- R67, without skipping: MEM.DUMP prints one row for each aligned word of the range, in order, and changes nothing. -/
def Obligations.MemoryDumpListsEveryWord : Prop :=
  ∀ (m : MemId) (s : State), ∃ lines : List DumpLine,
    exec (.memDump m false) s = .next (s.withOutput (.memDump lines)) ∧
    lines.length = (s.spec m).size / 4 ∧
    ∀ i, i < (s.spec m).size / 4 → ∃ r, lines[i]? = some (.row r) ∧ r.address = (s.spec m).base + 4 * i ∧
      r.b0 = (s.mem m).readByte r.address ∧ r.b1 = (s.mem m).readByte (r.address + 1) ∧
      r.b2 = (s.mem m).readByte (r.address + 2) ∧ r.b3 = (s.mem m).readByte (r.address + 3) ∧
      r.word.toNat = wordNat (s.mem m) r.address

/-- R67, with zero runs skipped, for every choice of what the spec leaves open (notes/assumptions/17.md): the rows
printed are rows of the full dump in their order, every row left out is a zero word, and the last word of the range
is printed last. -/
def Obligations.SkippingDumpKeepsLastAndNonzeroRows : Prop :=
  ∀ (m : MemId) (s : State), meetsConstraints s.config → ∃ lines : List DumpLine,
    exec (.memDump m true) s = .next (s.withOutput (.memDump lines)) ∧
    (lines.filterMap fun l => match l with | .row r => some r | .ellipsis => none).Sublist
      (memRows (s.spec m) (s.mem m)) ∧
    (∀ r ∈ memRows (s.spec m) (s.mem m), r.word ≠ 0#32 → DumpLine.row r ∈ lines) ∧
    lines.getLast? = some (.row (memRow (s.mem m) ((s.spec m).base + (s.spec m).size - 4)))

/-! ### Construction, isolation and the whole machine -/

/-- R99, R107, R22: construction gives a machine exactly when the configuration meets the constraints, and otherwise
the `ConfigError` that records it. The constraints beside disjointness are the spec's decision D11
(notes/assumptions/13.md); that the failure is a fault is the model's reading (5.md). -/
def Obligations.ConstructionChecksConfiguration : Prop :=
  ∀ c : Config,
    (meetsConstraints c → construct c = .next (State.initial c)) ∧
    (¬ meetsConstraints c → construct c = .fault (.configError c))

/-- R24, R25, R107: what construction leaves: every register and every byte 0 (the spec's decision D13: the source is
silent, notes/assumptions/6.md), the configuration as given. -/
def Obligations.ConstructionLeavesZeros : Prop :=
  ∀ c : Config,
    (State.initial c).config = c ∧ (∀ r : Fin 32, (State.initial c).readReg r = 0#32) ∧
    (∀ (m : MemId) (x : Nat), ((State.initial c).mem m).readByte x = 0#8) ∧
    (State.initial c).input = [] ∧ (State.initial c).output = .none

/-- The invariant holds of every machine that construction gives, and of the reset state. The reset state has the
example map of 95_test_vectors.md, which the spec leaves OPEN (DESIGN CHOICE, notes/assumptions/3.md), and the invariant's
clause on the unread cell of register 0 is the model's own (20.md). -/
def Obligations.InvariantHoldsAfterConstruction : Prop :=
  (∀ (c : Config) (s : State), construct c = .next s → inv s = true) ∧ inv State.reset = true

/-- Every step keeps the invariant: the configuration stays valid (R12, R22), both memories stay canonical and list
only addresses of their own range (R21), and the unread cell of register 0 stays 0 (R14; the cell is the model's own,
notes/assumptions/20.md). -/
def Obligations.StepKeepsInvariant : Prop :=
  ∀ s t : State, inv s = true → step s = .next t → inv t = true

/-- R12, R19: the configuration is fixed for the life of the machine: no run changes it. -/
def Obligations.ConfigurationNeverChanges : Prop :=
  ∀ (n : Nat) (s t : State), run n s = .next t → t.config = s.config

/-- R16, R21, R34: registers change by RF.WRITE alone, and the storage of an instance by a MEM.WRITE or COPY_TO on
that instance alone; no command touches the inputs still to come or the configuration. -/
def Obligations.OnlyWritersChangeState : Prop :=
  ∀ (i : Instr) (s t : State), exec i s = .next t →
    (writesRegister i = false → t.regs = s.regs) ∧
    (∀ m : MemId, storesTo i ≠ some m → t.mem m = s.mem m) ∧
    t.input = s.input ∧ t.config = s.config

/-- R41: in a valid configuration an address of the instruction memory fails on the data memory, and the other way
round. -/
def Obligations.EachInstanceAnswersOnlyItsRange : Prop :=
  ∀ (m n : MemId) (address : Word) (data : Int) (s : State), meetsConstraints s.config → m ≠ n →
    addressPasses (s.spec m) address.toNat →
    exec (.memRead n address data) s = .next (s.withOutput (.access 0#32 false)) ∧
    exec (.memWrite n address data) s = .next (s.withOutput (.access 0#32 false))

/-- R95, R100: a command stops exactly where the catalogue says that a failure is raised, with that failure; in every
other case it answers a next state, and no command is ever refused. -/
def Obligations.CommandsStopExactlyWhereCatalogued : Prop :=
  ∀ (i : Instr) (s : State),
    (∀ f, raises s i = some f → exec i s = .fault f) ∧
    (raises s i = none → ∃ t, exec i s = .next t)

/-- R38 (c): after any run, a byte is that of the latest MEM.WRITE or COPY_TO that covers its address, among the inputs
taken, or what it was before. -/
def Obligations.MemoryHoldsLatestStore : Prop :=
  ∀ (n : Nat) (s t : State) (m : MemId) (x : Nat), s.imem.wf = true → s.dmem.wf = true → run n s = .next t →
    (t.mem m).readByte x = latestByte s m x (s.input.take n) ((s.mem m).readByte x)

/-- R111 (b): when driver and host keep their duties (D16, D22: notes/assumptions/16.md), a register read in a cycle
gives the value the register held when the cycle began. -/
def Obligations.ReadsOfACycleSeeItsStart : Prop :=
  ∀ (s s0 t : State) (before within rest : List Input) (r : Fin 32),
    s.input = before ++ within ++ .rfrd r.val :: rest → disciplined s.input = true →
    (before = [] ∨ before.getLast? = some .cycle) → Input.cycle ∉ within →
    run before.length s = .next s0 → run within.length s0 = .next t →
    step t = .next ((t.withInput rest).withOutput (.word (s0.readReg r)))
end

