-- ==== Sys2Proof/Laws/State.lean ====
section
/-! SUPPORT. One lemma per field of `State` and update, and the same for the two updates of `Machine/Ops.lean`. -/

namespace Sys2Proof.Machine

@[simp] theorem State.withRegs_config (s : State) (v : Vector Word 32) : (s.withRegs v).config = s.config := rfl
@[simp] theorem State.withRegs_regs (s : State) (v : Vector Word 32) : (s.withRegs v).regs = v := rfl
@[simp] theorem State.withRegs_imem (s : State) (v : Vector Word 32) : (s.withRegs v).imem = s.imem := rfl
@[simp] theorem State.withRegs_dmem (s : State) (v : Vector Word 32) : (s.withRegs v).dmem = s.dmem := rfl
@[simp] theorem State.withRegs_input (s : State) (v : Vector Word 32) : (s.withRegs v).input = s.input := rfl
@[simp] theorem State.withRegs_output (s : State) (v : Vector Word 32) : (s.withRegs v).output = s.output := rfl

@[simp] theorem State.withRegs_withRegs (s : State) (v w : Vector Word 32) : (s.withRegs v).withRegs w = s.withRegs w := rfl

@[simp] theorem State.withRegs_spec (s : State) (v : Vector Word 32) (m : MemId) : (s.withRegs v).spec m = s.spec m := by cases m <;> rfl
@[simp] theorem State.withRegs_mem (s : State) (v : Vector Word 32) (m : MemId) : (s.withRegs v).mem m = s.mem m := by cases m <;> rfl

@[simp] theorem State.withImem_config (s : State) (v : Memory) : (s.withImem v).config = s.config := rfl
@[simp] theorem State.withImem_regs (s : State) (v : Memory) : (s.withImem v).regs = s.regs := rfl
@[simp] theorem State.withImem_imem (s : State) (v : Memory) : (s.withImem v).imem = v := rfl
@[simp] theorem State.withImem_dmem (s : State) (v : Memory) : (s.withImem v).dmem = s.dmem := rfl
@[simp] theorem State.withImem_input (s : State) (v : Memory) : (s.withImem v).input = s.input := rfl
@[simp] theorem State.withImem_output (s : State) (v : Memory) : (s.withImem v).output = s.output := rfl

@[simp] theorem State.withImem_withImem (s : State) (v w : Memory) : (s.withImem v).withImem w = s.withImem w := rfl

@[simp] theorem State.withImem_spec (s : State) (v : Memory) (m : MemId) : (s.withImem v).spec m = s.spec m := by cases m <;> rfl
@[simp] theorem State.withImem_readReg (s : State) (v : Memory) (r : Fin 32) : (s.withImem v).readReg r = s.readReg r := rfl

@[simp] theorem State.withDmem_config (s : State) (v : Memory) : (s.withDmem v).config = s.config := rfl
@[simp] theorem State.withDmem_regs (s : State) (v : Memory) : (s.withDmem v).regs = s.regs := rfl
@[simp] theorem State.withDmem_imem (s : State) (v : Memory) : (s.withDmem v).imem = s.imem := rfl
@[simp] theorem State.withDmem_dmem (s : State) (v : Memory) : (s.withDmem v).dmem = v := rfl
@[simp] theorem State.withDmem_input (s : State) (v : Memory) : (s.withDmem v).input = s.input := rfl
@[simp] theorem State.withDmem_output (s : State) (v : Memory) : (s.withDmem v).output = s.output := rfl

@[simp] theorem State.withDmem_withDmem (s : State) (v w : Memory) : (s.withDmem v).withDmem w = s.withDmem w := rfl

@[simp] theorem State.withDmem_spec (s : State) (v : Memory) (m : MemId) : (s.withDmem v).spec m = s.spec m := by cases m <;> rfl
@[simp] theorem State.withDmem_readReg (s : State) (v : Memory) (r : Fin 32) : (s.withDmem v).readReg r = s.readReg r := rfl

@[simp] theorem State.withInput_config (s : State) (v : List Input) : (s.withInput v).config = s.config := rfl
@[simp] theorem State.withInput_regs (s : State) (v : List Input) : (s.withInput v).regs = s.regs := rfl
@[simp] theorem State.withInput_imem (s : State) (v : List Input) : (s.withInput v).imem = s.imem := rfl
@[simp] theorem State.withInput_dmem (s : State) (v : List Input) : (s.withInput v).dmem = s.dmem := rfl
@[simp] theorem State.withInput_input (s : State) (v : List Input) : (s.withInput v).input = v := rfl
@[simp] theorem State.withInput_output (s : State) (v : List Input) : (s.withInput v).output = s.output := rfl

@[simp] theorem State.withInput_withInput (s : State) (v w : List Input) : (s.withInput v).withInput w = s.withInput w := rfl

@[simp] theorem State.withInput_spec (s : State) (v : List Input) (m : MemId) : (s.withInput v).spec m = s.spec m := by cases m <;> rfl
@[simp] theorem State.withInput_mem (s : State) (v : List Input) (m : MemId) : (s.withInput v).mem m = s.mem m := by cases m <;> rfl
@[simp] theorem State.withInput_readReg (s : State) (v : List Input) (r : Fin 32) : (s.withInput v).readReg r = s.readReg r := rfl

@[simp] theorem State.withOutput_config (s : State) (v : Output) : (s.withOutput v).config = s.config := rfl
@[simp] theorem State.withOutput_regs (s : State) (v : Output) : (s.withOutput v).regs = s.regs := rfl
@[simp] theorem State.withOutput_imem (s : State) (v : Output) : (s.withOutput v).imem = s.imem := rfl
@[simp] theorem State.withOutput_dmem (s : State) (v : Output) : (s.withOutput v).dmem = s.dmem := rfl
@[simp] theorem State.withOutput_input (s : State) (v : Output) : (s.withOutput v).input = s.input := rfl
@[simp] theorem State.withOutput_output (s : State) (v : Output) : (s.withOutput v).output = v := rfl

@[simp] theorem State.withOutput_withOutput (s : State) (v w : Output) : (s.withOutput v).withOutput w = s.withOutput w := rfl

@[simp] theorem State.withOutput_spec (s : State) (v : Output) (m : MemId) : (s.withOutput v).spec m = s.spec m := by cases m <;> rfl
@[simp] theorem State.withOutput_mem (s : State) (v : Output) (m : MemId) : (s.withOutput v).mem m = s.mem m := by cases m <;> rfl
@[simp] theorem State.withOutput_readReg (s : State) (v : Output) (r : Fin 32) : (s.withOutput v).readReg r = s.readReg r := rfl

@[simp] theorem State.setMem_config (s : State) (m : MemId) (v : Memory) : (s.setMem m v).config = s.config := by cases m <;> rfl
@[simp] theorem State.setMem_regs (s : State) (m : MemId) (v : Memory) : (s.setMem m v).regs = s.regs := by cases m <;> rfl
@[simp] theorem State.setMem_input (s : State) (m : MemId) (v : Memory) : (s.setMem m v).input = s.input := by cases m <;> rfl
@[simp] theorem State.setMem_output (s : State) (m : MemId) (v : Memory) : (s.setMem m v).output = s.output := by cases m <;> rfl

@[simp] theorem State.setMem_spec (s : State) (m n : MemId) (v : Memory) : (s.setMem m v).spec n = s.spec n := by
  cases m <;> cases n <;> rfl

@[simp] theorem State.setMem_mem_same (s : State) (m : MemId) (v : Memory) : (s.setMem m v).mem m = v := by cases m <;> rfl

theorem State.setMem_mem_other (s : State) {m n : MemId} (v : Memory) (h : n ≠ m) : (s.setMem m v).mem n = s.mem n := by
  cases m <;> cases n <;> first | rfl | exact absurd rfl h

@[simp] theorem State.setMem_readReg (s : State) (m : MemId) (v : Memory) (r : Fin 32) : (s.setMem m v).readReg r = s.readReg r := by
  cases m <;> rfl

@[simp] theorem State.writeReg_config (s : State) (r : Fin 32) (v : Word) : (s.writeReg r v).config = s.config := by
  unfold State.writeReg; split <;> rfl

@[simp] theorem State.writeReg_imem (s : State) (r : Fin 32) (v : Word) : (s.writeReg r v).imem = s.imem := by
  unfold State.writeReg; split <;> rfl

@[simp] theorem State.writeReg_dmem (s : State) (r : Fin 32) (v : Word) : (s.writeReg r v).dmem = s.dmem := by
  unfold State.writeReg; split <;> rfl

@[simp] theorem State.writeReg_input (s : State) (r : Fin 32) (v : Word) : (s.writeReg r v).input = s.input := by
  unfold State.writeReg; split <;> rfl

@[simp] theorem State.writeReg_output (s : State) (r : Fin 32) (v : Word) : (s.writeReg r v).output = s.output := by
  unfold State.writeReg; split <;> rfl

@[simp] theorem State.writeReg_spec (s : State) (r : Fin 32) (v : Word) (m : MemId) : (s.writeReg r v).spec m = s.spec m := by
  unfold State.writeReg; split <;> simp

@[simp] theorem State.writeReg_mem (s : State) (r : Fin 32) (v : Word) (m : MemId) : (s.writeReg r v).mem m = s.mem m := by
  unfold State.writeReg; split <;> simp

/-- What RF.READ reads after a register write (R14, R56, R57). -/
theorem State.readReg_writeReg (s : State) (r q : Fin 32) (v : Word) :
    (s.writeReg r v).readReg q = if q = r ∧ q ≠ 0 then v else s.readReg q := by
  unfold State.writeReg State.readReg
  by_cases hq : q = 0
  · simp [hq]
  · by_cases hr : r = 0
    · subst hr; simp [hq]
    · by_cases h : q = r
      · subst h; simp [hq]
      · have h' : r.val ≠ q.val := fun e => h (Fin.ext e.symm)
        simp [hq, hr, h, Vector.getElem_set_ne _ _ h']

/-- The cell of register 0 is never written. -/
theorem State.writeReg_cell_zero (s : State) (r : Fin 32) (v : Word) : (s.writeReg r v).regs[0] = s.regs[0] := by
  unfold State.writeReg
  split
  · rfl
  · rename_i h
    have h' : r.val ≠ 0 := fun e => h (Fin.ext e)
    simp [Vector.getElem_set_ne _ _ h']

/-- Which register numbers name a register (R56, R57). -/
theorem regIndex_eq_some {regno : Int} {r : Fin 32} : regIndex regno = some r ↔ regno = (r.val : Int) := by
  unfold regIndex
  constructor
  · intro h
    split at h
    · injection h with h
      subst h
      simp only [Fin.ofNat]
      omega
    · cases h
  · rintro rfl
    have := r.isLt
    rw [if_pos (by omega)]
    congr 1
    apply Fin.ext
    simp [Fin.ofNat, Nat.mod_eq_of_lt this]

/-- Which register numbers are out of range (R96). -/
theorem regIndex_eq_none {regno : Int} : regIndex regno = none ↔ regno < 0 ∨ 32 ≤ regno := by
  unfold regIndex
  split <;> simp <;> omega

end Sys2Proof.Machine
end

