-- ==== Sys2Proof/Laws/Memory.lean ====
section
/-! SUPPORT. What reading and writing the bytes of a memory do, and that every operation keeps the canonical form. -/

namespace Sys2Proof.Machine

/-! ### The canonical form -/

@[simp] theorem Memory.wf_nil : Memory.wf [] = true := rfl

/-- The canonical form of a memory with a first pair. -/
theorem Memory.wf_cons {k : Nat} {v : Byte} {rest : Memory} :
    Memory.wf ((k, v) :: rest) = true ↔
      v ≠ Memory.unlisted ∧ (∀ c ∈ rest, k < c.1) ∧ Memory.wf rest = true := by
  simp [Memory.wf, and_assoc]

/-- The addresses a write leaves listed: those before it, and the one written. -/
theorem Memory.mem_writeByte {mem : Memory} {a : Nat} {b : Byte} {c : Host.Cell}
    (h : c ∈ mem.writeByte a b) : c ∈ mem ∨ c = (a, b) := by
  induction mem with
  | nil =>
    unfold Memory.writeByte at h
    split at h <;> simp_all
  | cons p rest ih =>
    obtain ⟨k, v⟩ := p
    unfold Memory.writeByte at h
    split at h
    · split at h <;> simp_all; tauto
    · split at h
      · split at h <;> simp_all; tauto
      · rcases List.mem_cons.1 h with h | h
        · exact .inl (by simp [h])
        · rcases ih h with h | h
          · exact .inl (by simp [h])
          · exact .inr h

theorem Memory.wf_writeByte {mem : Memory} (h : mem.wf = true) (a : Nat) (b : Byte) :
    (mem.writeByte a b).wf = true := by
  induction mem with
  | nil =>
    unfold Memory.writeByte
    split
    · rfl
    · simp_all [Memory.wf]
  | cons p rest ih =>
    obtain ⟨k, v⟩ := p
    obtain ⟨hv, hk, hr⟩ := Memory.wf_cons.1 h
    unfold Memory.writeByte
    split
    · split
      · exact h
      · refine Memory.wf_cons.2 ⟨‹_›, ?_, h⟩
        intro c hc
        rcases List.mem_cons.1 hc with rfl | hc
        · assumption
        · exact lt_trans ‹_› (hk c hc)
    · split
      · rename_i hak
        split
        · exact hr
        · exact Memory.wf_cons.2 ⟨‹_›, hak ▸ hk, hr⟩
      · refine Memory.wf_cons.2 ⟨hv, ?_, ih hr⟩
        intro c hc
        rcases Memory.mem_writeByte hc with hc | rfl
        · exact hk c hc
        · show k < a
          omega

theorem Memory.wf_writeBytes {mem : Memory} (h : mem.wf = true) (a : Nat) (bs : List Byte) :
    (mem.writeBytes a bs).wf = true := by
  induction bs generalizing mem a with
  | nil => exact h
  | cons b rest ih => exact ih (Memory.wf_writeByte h a b) (a + 1)

theorem Memory.wf_writeWord {mem : Memory} (h : mem.wf = true) (a : Nat) (w : Word) :
    (mem.writeWord a w).wf = true := Memory.wf_writeBytes h a _

/-! ### The range of an instance -/

theorem Memory.within_iff {c : MemSpec} {mem : Memory} :
    Memory.within c mem = true ↔ ∀ cell ∈ mem, c.base ≤ cell.1 ∧ cell.1 < c.base + c.size := by
  simp [Memory.within]

theorem Memory.within_writeByte {c : MemSpec} {mem : Memory} (h : mem.within c = true) {a : Nat} (b : Byte)
    (ha : c.base ≤ a ∧ a < c.base + c.size) : (mem.writeByte a b).within c = true := by
  rw [Memory.within_iff] at h ⊢
  intro cell hc
  rcases Memory.mem_writeByte hc with hc | rfl
  · exact h cell hc
  · exact ha

theorem Memory.within_writeBytes {c : MemSpec} {mem : Memory} (h : mem.within c = true) {a : Nat} (bs : List Byte)
    (ha : c.base ≤ a ∧ a + bs.length ≤ c.base + c.size) : (mem.writeBytes a bs).within c = true := by
  induction bs generalizing mem a with
  | nil => exact h
  | cons b rest ih =>
    rw [List.length_cons] at ha
    exact ih (Memory.within_writeByte h b (by omega)) (by omega)

/-! ### Reading after writing -/

/-- Reading an address that a canonical memory does not list. -/
theorem Memory.readByte_of_lt {mem : Memory} {a : Nat} (h : ∀ c ∈ mem, a < c.1) :
    mem.readByte a = Memory.unlisted := by
  induction mem with
  | nil => rfl
  | cons p rest ih =>
    obtain ⟨k, v⟩ := p
    have hk : a < k := h (k, v) (by simp)
    unfold Memory.readByte
    rw [if_neg (by omega)]
    exact ih fun c hc => h c (by simp [hc])

/-- A write leaves every other address alone (R34). -/
theorem Memory.readByte_writeByte_ne {mem : Memory} {a x : Nat} (b : Byte) (h : x ≠ a) :
    (mem.writeByte a b).readByte x = mem.readByte x := by
  induction mem with
  | nil =>
    unfold Memory.writeByte
    split
    · rfl
    · simp [Memory.readByte, h.symm]
  | cons p rest ih =>
    obtain ⟨k, v⟩ := p
    unfold Memory.writeByte
    split
    · split
      · rfl
      · simp [Memory.readByte, h.symm]
    · split
      · rename_i hak
        split <;> simp [Memory.readByte, ← hak, h.symm]
      · simp only [Memory.readByte, ih]

/-- Reading the address just written (R38 (c)). -/
theorem Memory.readByte_writeByte_same {mem : Memory} (hw : mem.wf = true) (a : Nat) (b : Byte) :
    (mem.writeByte a b).readByte a = b := by
  induction mem with
  | nil =>
    unfold Memory.writeByte
    split
    · simp_all [Memory.readByte]
    · simp [Memory.readByte]
  | cons p rest ih =>
    obtain ⟨k, v⟩ := p
    obtain ⟨-, hk, hr⟩ := Memory.wf_cons.1 hw
    unfold Memory.writeByte
    split
    · rename_i hak
      split
      · rename_i hb
        rw [hb]
        refine Memory.readByte_of_lt fun c hc => ?_
        rcases List.mem_cons.1 hc with rfl | hc
        · exact hak
        · exact lt_trans hak (hk c hc)
      · simp [Memory.readByte]
    · split
      · rename_i hak
        split
        · rename_i hb
          rw [hb]
          exact Memory.readByte_of_lt (hak ▸ hk)
        · simp [Memory.readByte]
      · have : k ≠ a := by omega
        simp [Memory.readByte, this, ih hr]

/-- What a byte reads as after one byte is stored. -/
theorem Memory.readByte_writeByte {mem : Memory} (hw : mem.wf = true) (a x : Nat) (b : Byte) :
    (mem.writeByte a b).readByte x = if x = a then b else mem.readByte x := by
  split
  · subst_vars; exact Memory.readByte_writeByte_same hw _ b
  · exact Memory.readByte_writeByte_ne b ‹_›

/-- A sequence of bytes stored leaves every address outside it alone. -/
theorem Memory.readByte_writeBytes_outside {mem : Memory} {a x : Nat} (bs : List Byte)
    (h : x < a ∨ a + bs.length ≤ x) : (mem.writeBytes a bs).readByte x = mem.readByte x := by
  induction bs generalizing mem a with
  | nil => rfl
  | cons b rest ih =>
    rw [List.length_cons] at h
    show (Memory.writeBytes (mem.writeByte a b) (a + 1) rest).readByte x = _
    rw [ih (by omega), Memory.readByte_writeByte_ne b (by omega)]

/-- What a byte reads as after a sequence of bytes is stored. -/
theorem Memory.readByte_writeBytes {mem : Memory} (hw : mem.wf = true) (a x : Nat) (bs : List Byte) :
    (mem.writeBytes a bs).readByte x = if a ≤ x then (bs[x - a]?).getD (mem.readByte x) else mem.readByte x := by
  induction bs generalizing mem a with
  | nil => simp [Memory.writeBytes]
  | cons b rest ih =>
    show (Memory.writeBytes (mem.writeByte a b) (a + 1) rest).readByte x = _
    rw [ih (Memory.wf_writeByte hw a b), Memory.readByte_writeByte hw]
    rcases lt_trichotomy x a with h | h | h
    · rw [if_neg (by omega), if_neg (by omega), if_neg (by omega)]
    · subst h
      simp
    · obtain ⟨d, rfl⟩ : ∃ d, x = a + 1 + d := ⟨x - (a + 1), by omega⟩
      rw [if_pos (by omega), if_neg (by omega), if_pos (by omega)]
      have e : a + 1 + d - a = d + 1 := by omega
      have e' : a + 1 + d - (a + 1) = d := by omega
      rw [e, e', List.getElem?_cons_succ]

@[simp] theorem Memory.readBytes_length (mem : Memory) (a n : Nat) : (mem.readBytes a n).length = n := by
  induction n generalizing a with
  | zero => rfl
  | succ n ih => simp [Memory.readBytes, ih]

/-- Each byte of a bulk read is the byte at its address (R66). -/
theorem Memory.getElem_readBytes (mem : Memory) (a n i : Nat) (h : i < (mem.readBytes a n).length) :
    (mem.readBytes a n)[i] = mem.readByte (a + i) := by
  induction n generalizing a i with
  | zero => simp [Memory.readBytes] at h
  | succ n ih =>
    cases i with
    | zero => rfl
    | succ i =>
      simp only [Memory.readBytes, List.getElem_cons_succ]
      rw [ih (a + 1) i (by simpa using h)]
      congr 1
      omega

/-- The byte at each address of a stored word (R30, R63). -/
theorem Memory.readByte_writeWord {mem : Memory} (hw : mem.wf = true) (a x : Nat) (w : Word) :
    (mem.writeWord a w).readByte x =
      if a ≤ x ∧ x < a + 4 then byteOf w (x - a) else mem.readByte x := by
  unfold Memory.writeWord
  rw [Memory.readByte_writeBytes hw]
  split
  · rename_i hax
    obtain ⟨d, rfl⟩ : ∃ d, x = a + d := ⟨x - a, by omega⟩
    have e : a + d - a = d := by omega
    rw [e]
    match d with
    | 0 => simp
    | 1 => simp
    | 2 => simp
    | 3 => simp
    | d + 4 =>
      rw [if_neg (by omega)]
      rfl
  · rw [if_neg (by omega)]

/-- The bytes of a word, put together again, are the word (R30). -/
theorem littleEndian_byteOf (w : Word) :
    littleEndian (byteOf w 0) (byteOf w 1) (byteOf w 2) (byteOf w 3) = w := by
  apply BitVec.eq_of_getLsbD_eq
  intro i hi
  simp only [littleEndian, byteOf, BitVec.getLsbD_extractLsb', BitVec.getLsbD_append]
  interval_cases i <;> simp

/-- A word stored and read back (R63). -/
theorem Memory.readWord_writeWord {mem : Memory} (hw : mem.wf = true) (a : Nat) (w : Word) :
    (mem.writeWord a w).readWord a = w := by
  simp only [Memory.readWord, Memory.readByte_writeWord hw]
  simp [littleEndian_byteOf]

end Sys2Proof.Machine
end

