-- ==== Sys2Proof/Laws/Operands.lean ====
section
/-! SUPPORT. What reading an operand and putting a word together give, in numbers. -/

namespace Sys2Proof.Machine

/-- R52 (a): the shift amount is the operand modulo 32. -/
theorem shiftAmount_eq (b : Word) : shiftAmount b = b.toNat % 32 := by simp [shiftAmount]

/-- The low byte is the operand modulo 256. -/
theorem lowByte_toNat (w : Word) : (lowByte w).toNat = w.toNat % 256 := by simp [lowByte]

/-- R85: a lane in numbers. -/
theorem lane_toNat (w : Word) (k : Nat) : (lane w k).toNat = Safety.laneNat w k := by
  simp [lane, Safety.laneNat, Nat.shiftRight_eq_div_pow]

/-- R85: a channel byte in numbers. -/
theorem channel_toNat (w : Word) (k : Nat) : (channel w k).toNat = Safety.channelNat w k := by
  simp [channel, Safety.channelNat, Nat.shiftRight_eq_div_pow]

/-- A byte in a lane keeps its value. -/
theorem byteLane_toNat (c : Byte) : (byteLane c).toNat = c.toNat := by
  have := c.isLt
  simp only [byteLane, BitVec.toNat_setWidth]
  omega

/-- R85: a packed word in numbers. -/
theorem mklanes_toNat (l2 l1 l0 : Lane) :
    (mklanes l2 l1 l0).toNat = l2.toNat * 2 ^ 20 + l1.toNat * 2 ^ 10 + l0.toNat := by
  have h2 := l2.isLt
  have h1 := l1.isLt
  have h0 := l0.isLt
  unfold mklanes
  rw [BitVec.toNat_append, BitVec.toNat_append, BitVec.toNat_append, ← Nat.shiftLeft_add_eq_or_of_lt h0,
    ← Nat.shiftLeft_add_eq_or_of_lt h1, ← Nat.shiftLeft_add_eq_or_of_lt h2]
  simp only [Nat.shiftLeft_eq, BitVec.toNat_ofNat]
  omega

/-- R85: a raw word in numbers. -/
theorem mkraw_toNat (tag c2 c1 c0 : Byte) :
    (mkraw tag c2 c1 c0).toNat = tag.toNat * 2 ^ 24 + c2.toNat * 2 ^ 16 + c1.toNat * 2 ^ 8 + c0.toNat := by
  have h2 := c2.isLt
  have h1 := c1.isLt
  have h0 := c0.isLt
  unfold mkraw
  rw [BitVec.toNat_append, BitVec.toNat_append, BitVec.toNat_append, ← Nat.shiftLeft_add_eq_or_of_lt h0,
    ← Nat.shiftLeft_add_eq_or_of_lt h1, ← Nat.shiftLeft_add_eq_or_of_lt h2]
  simp only [Nat.shiftLeft_eq]
  omega

/-- R30: a little-endian word in numbers. -/
theorem littleEndian_toNat (b0 b1 b2 b3 : Byte) :
    (littleEndian b0 b1 b2 b3).toNat =
      b0.toNat + 2 ^ 8 * b1.toNat + 2 ^ 16 * b2.toNat + 2 ^ 24 * b3.toNat := by
  have := mkraw_toNat b3 b2 b1 b0
  unfold littleEndian mkraw at *
  omega

/-- R30: a byte of a word in numbers. -/
theorem byteOf_eq (w : Word) (i : Nat) : byteOf w i = BitVec.ofNat 8 (w.toNat / 2 ^ (8 * i)) := by
  apply BitVec.eq_of_toNat_eq
  simp [byteOf, Nat.shiftRight_eq_div_pow]

/-- The lanes of a packed word are the lanes it was put together from (R85). -/
theorem lane_mklanes (l2 l1 l0 : Lane) :
    lane (mklanes l2 l1 l0) 2 = l2 ∧ lane (mklanes l2 l1 l0) 1 = l1 ∧ lane (mklanes l2 l1 l0) 0 = l0 := by
  refine ⟨?_, ?_, ?_⟩ <;>
  · apply BitVec.eq_of_getLsbD_eq
    intro i hi
    simp only [lane, mklanes, BitVec.getLsbD_extractLsb', BitVec.getLsbD_append]
    interval_cases i <;> simp

/-- R86: lane `k` of a lanewise result is the function of lane `k` of the operands. -/
theorem lane_lanewise (f : Lane → Lane → Lane) (a b : Word) {k : Nat} (h : k < 3) :
    lane (lanewise f a b) k = f (lane a k) (lane b k) := by
  obtain ⟨h2, h1, h0⟩ := lane_mklanes (f (lane a 2) (lane b 2)) (f (lane a 1) (lane b 1)) (f (lane a 0) (lane b 0))
  unfold lanewise
  interval_cases k <;> assumption

end Sys2Proof.Machine
end

