-- ==== Sys2Proof/Laws/Ops.lean ====
section
/-! SUPPORT. What the shared operations and the step can do, said once. -/

namespace Sys2Proof.Machine

/-- What `respond` answers. -/
@[simp] theorem respond_eq (s : State) (o : Output) : respond s o = .next (s.withOutput o) := rfl

/-- If `respond` answers a next state, it is the given one with its outputs. -/
theorem respond_next {s t : State} {o : Output} (h : respond s o = .next t) : t = s.withOutput o := by
  cases h; rfl

/-- A raised failure answers no next state. -/
theorem raiseFailure_next {f : Fault} {t : State} : raiseFailure f ≠ .next t := by
  intro h; cases h

/-- An access failure leaves everything but the outputs (R97). -/
@[simp] theorem accessFailure_eq (s : State) : accessFailure s = .next (s.withOutput (.access 0#32 false)) := rfl

@[simp] theorem idle_eq (s : State) : idle s = .next (s.withOutput .none) := rfl

/-- The address check on numbers (R60). -/
theorem addrOk_iff {c : MemSpec} {address : Word} :
    addrOk c address = true ↔
      c.base ≤ address.toNat ∧ address.toNat < c.base + c.size ∧ address.toNat % c.granularity = 0 := by
  simp [addrOk, and_assoc]

/-- The range check on numbers (R65). -/
theorem rangeOk_iff {c : MemSpec} {address n : Nat} :
    rangeOk c address n = true ↔ c.base ≤ address ∧ address + n ≤ c.base + c.size := by
  simp [rangeOk]

/-- The constraints of R22 on one instance. -/
theorem MemSpec_valid_iff {c : MemSpec} :
    c.valid = true ↔
      c.granularity = 4 ∧ c.base % 4 = 0 ∧ c.size % 4 = 0 ∧ 0 < c.size ∧ c.base + c.size ≤ 2 ^ 32 := by
  simp [MemSpec.valid, and_assoc]

/-- In a valid configuration an address that passes the check has its whole word in range (R60). -/
theorem addrOk_word_in_range {c : MemSpec} (hc : c.valid = true) {address : Word} (h : addrOk c address = true) :
    c.base ≤ address.toNat ∧ address.toNat + 4 ≤ c.base + c.size := by
  obtain ⟨hg, hb, hs, -, -⟩ := MemSpec_valid_iff.1 hc
  obtain ⟨h1, h2, h3⟩ := addrOk_iff.1 h
  rw [hg] at h3
  omega

/-- What MEM.WRITE can do. -/
theorem execMemWrite_next {m : MemId} {address : Word} {data : Int} {s t : State}
    (h : execMemWrite m address data s = .next t) :
    (addrOk (s.spec m) address = true ∧
      t = (s.setMem m ((s.mem m).writeWord address.toNat (trunc32 data))).withOutput (.access 0#32 true)) ∨
    (addrOk (s.spec m) address = false ∧ t = s.withOutput (.access 0#32 false)) := by
  unfold execMemWrite at h
  split at h
  · exact .inl ⟨‹_›, respond_next h⟩
  · rename_i ha
    exact .inr ⟨Bool.eq_false_iff.2 ha, respond_next h⟩

/-- What COPY_TO can do. -/
theorem execCopyTo_next {m : MemId} {address : Nat} {bytes : List Byte} {s t : State}
    (h : execCopyTo m address bytes s = .next t) :
    rangeOk (s.spec m) address bytes.length = true ∧
      t = (s.setMem m ((s.mem m).writeBytes address bytes)).withOutput .none := by
  unfold execCopyTo at h
  split at h
  · exact ⟨‹_›, respond_next h⟩
  · exact absurd h raiseFailure_next

/-- What RF.WRITE can do. -/
theorem execRfWrite_next {regno value : Int} {s t : State} (h : execRfWrite regno value s = .next t) :
    ∃ r : Fin 32, regno = (r.val : Int) ∧ t = (s.writeReg r (trunc32 value)).withOutput .none := by
  unfold execRfWrite at h
  split at h
  · rename_i r hr
    exact ⟨r, regIndex_eq_some.1 hr, respond_next h⟩
  · exact absurd h raiseFailure_next

/-- What any command can do: the three writers write, every other command changes its outputs alone. -/
theorem exec_next {i : Instr} {s t : State} (h : exec i s = .next t) :
    (∃ regno value, i = .rfWrite regno value ∧ execRfWrite regno value s = .next t) ∨
    (∃ m address data, i = .memWrite m address data ∧ execMemWrite m address data s = .next t) ∨
    (∃ m address bytes, i = .copyTo m address bytes ∧ execCopyTo m address bytes s = .next t) ∨
    (Safety.writesRegister i = false ∧ Safety.storesTo i = none ∧ ∃ o, t = s.withOutput o) := by
  cases i with
  | rfWrite regno value => exact .inl ⟨_, _, rfl, h⟩
  | memWrite m address data => exact .inr (.inl ⟨_, _, _, rfl, h⟩)
  | copyTo m address bytes => exact .inr (.inr (.inl ⟨_, _, _, rfl, h⟩))
  | rfRead regno =>
    refine .inr (.inr (.inr ⟨rfl, rfl, ?_⟩))
    simp only [exec, execRfRead] at h
    split at h
    · exact ⟨_, respond_next h⟩
    · exact absurd h raiseFailure_next
  | memRead m address data =>
    refine .inr (.inr (.inr ⟨rfl, rfl, ?_⟩))
    simp only [exec, execMemRead] at h
    split at h <;> exact ⟨_, respond_next h⟩
  | copyFrom m address length =>
    refine .inr (.inr (.inr ⟨rfl, rfl, ?_⟩))
    simp only [exec, execCopyFrom] at h
    split at h
    · exact ⟨_, respond_next h⟩
    · exact absurd h raiseFailure_next
  | _ => exact .inr (.inr (.inr ⟨rfl, rfl, _, respond_next h⟩))

/-- What a step does with a pending input. -/
theorem step_of_input {s : State} {i : Input} {rest : List Input} (h : s.input = i :: rest) :
    step s = match decode i with
      | .command c => exec c (s.withInput rest)
      | .noCommand _ => idle (s.withInput rest) := by
  cases hd : decode i <;> simp only [step, fetch, h, hd]

/-- What a step does when nothing is pending. -/
theorem step_of_nothing {s : State} (h : s.input = []) : step s = .next (s.withOutput .none) := by
  simp only [step, fetch, h, idle_eq]

/-- What a step that answers a next state has done: carried a command out, or taken an input that spells none, or
found nothing pending. -/
theorem step_next {s t : State} (h : step s = .next t) :
    (∃ i rest c, s.input = i :: rest ∧ decode i = .command c ∧ exec c (s.withInput rest) = .next t) ∨
    (∃ i rest w, s.input = i :: rest ∧ decode i = .noCommand w ∧ t = (s.withInput rest).withOutput .none) ∨
    (s.input = [] ∧ t = s.withOutput .none) := by
  cases hi : s.input with
  | nil =>
    rw [step_of_nothing hi] at h
    cases h
    exact .inr (.inr ⟨rfl, rfl⟩)
  | cons i rest =>
    rw [step_of_input hi] at h
    cases hd : decode i with
    | command c =>
      rw [hd] at h
      exact .inl ⟨i, rest, c, rfl, hd, h⟩
    | noCommand w =>
      rw [hd] at h
      cases h
      exact .inr (.inl ⟨i, rest, w, rfl, hd, rfl⟩)

/-- A run of one step and more goes through the state after the first. -/
theorem run_succ {n : Nat} {s t : State} (h : Safety.run (n + 1) s = .next t) :
    ∃ u, step s = .next u ∧ Safety.run n u = .next t := by
  unfold Safety.run at h
  split at h
  · exact ⟨_, ‹_›, h⟩
  · cases h
  · cases h

end Sys2Proof.Machine
end

