-- ==== Sys2Proof/Laws/PerInstr.lean ====
section
/-! SUPPORT. A fact of every command's encoding, one lemma per constructor: its port values spell the Adder's second
operand out, so that writing the default out again changes nothing (R50). -/

namespace Sys2Proof.Laws.EncodedExplicitly

/-- The port values of a command leave no operand to a default. -/
def Statement (i : Instr) : Prop := (encode i).explicit = encode i

theorem add (a b : Word) : Statement (.add a b) := rfl

theorem sub (a b : Word) : Statement (.sub a b) := rfl

theorem and (a b : Word) : Statement (.and a b) := rfl

theorem or (a b : Word) : Statement (.or a b) := rfl

theorem xor (a b : Word) : Statement (.xor a b) := rfl

theorem slt (a b : Word) : Statement (.slt a b) := rfl

theorem sltu (a b : Word) : Statement (.sltu a b) := rfl

theorem sll (a b : Word) : Statement (.sll a b) := rfl

theorem sra (a b : Word) : Statement (.sra a b) := rfl

theorem srl (a b : Word) : Statement (.srl a b) := rfl

theorem copy1 (a b : Word) : Statement (.copy1 a b) := rfl

theorem copy2 (a b : Word) : Statement (.copy2 a b) := rfl

theorem seq (a b : Word) : Statement (.seq a b) := rfl

theorem mul (a b : Word) : Statement (.mul a b) := rfl

theorem vunpack (a b : Word) : Statement (.vunpack a b) := rfl

theorem vpack (a b : Word) : Statement (.vpack a b) := rfl

theorem vbcast (a b : Word) : Statement (.vbcast a b) := rfl

theorem vaddi (a b : Word) : Statement (.vaddi a b) := rfl

theorem vadd (a b : Word) : Statement (.vadd a b) := rfl

theorem vsub (a b : Word) : Statement (.vsub a b) := rfl

theorem vmul (a b : Word) : Statement (.vmul a b) := rfl

theorem aluNone (fn : Nat) (a b : Word) : Statement (.aluNone fn a b) := rfl

theorem adder (a b : Word) : Statement (.adder a b) := rfl

theorem rfRead (regno : Int) : Statement (.rfRead regno) := rfl

theorem rfWrite (regno value : Int) : Statement (.rfWrite regno value) := rfl

theorem memNop (m : MemId) (address : Word) (data : Int) (fn : Nat) : Statement (.memNop m address data fn) := rfl

theorem memRead (m : MemId) (address : Word) (data : Int) : Statement (.memRead m address data) := rfl

theorem memWrite (m : MemId) (address : Word) (data : Int) : Statement (.memWrite m address data) := rfl

theorem memBadfn (m : MemId) (address : Word) (data : Int) (fn : Nat) : Statement (.memBadfn m address data fn) := rfl

theorem copyTo (m : MemId) (address : Nat) (bytes : List Byte) : Statement (.copyTo m address bytes) := rfl

theorem copyFrom (m : MemId) (address length : Nat) : Statement (.copyFrom m address length) := rfl

theorem memDump (m : MemId) (skipZeroRuns : Bool) : Statement (.memDump m skipZeroRuns) := rfl

theorem rfDump : Statement (.rfDump) := rfl

end Sys2Proof.Laws.EncodedExplicitly
end

