-- ==== Sys2Proof/Machine/DumpText.lean ====
section
/-! DEFINITION. The characters of one line of a dump, as far as R58 and R67 give them. The letter case of the digits
is an argument, and so are the numbers of digits of a memory row: no source gives them (notes/assumptions/17.md). No meaning uses
this file: a dump's text is read by humans only (R58). -/

namespace Sys2Proof.Machine

/-- One hexadecimal digit. -/
def hexDigit (upper : Bool) (n : Nat) : Char :=
  if n < 10 then Char.ofNat (48 + n) else if upper then Char.ofNat (55 + n) else Char.ofNat (87 + n)

/-- The low `k` hexadecimal digits of `n`, filled with zeros. -/
def hexDigits (upper : Bool) (k n : Nat) : List Char :=
  match k with
  | 0 => []
  | k + 1 => hexDigits upper k (n / 16) ++ [hexDigit upper (n % 16)]

/-- A number below 100 in decimal. -/
def decimal (n : Nat) : List Char :=
  if n < 10 then [Char.ofNat (48 + n)] else [Char.ofNat (48 + n / 10), Char.ofNat (48 + n % 10)]

/-- The spelling of a symbolic register name (R15). -/
def RegName.text : RegName → List Char
  | .zero => ['z', 'e', 'r', 'o']
  | .ra => ['r', 'a']
  | .sp => ['s', 'p']
  | .gp => ['g', 'p']
  | .tp => ['t', 'p']
  | .t0 => ['t', '0']
  | .t1 => ['t', '1']
  | .t2 => ['t', '2']
  | .t3 => ['t', '3']
  | .t4 => ['t', '4']
  | .t5 => ['t', '5']
  | .t6 => ['t', '6']
  | .s0 => ['s', '0']
  | .s1 => ['s', '1']
  | .s2 => ['s', '2']
  | .s3 => ['s', '3']
  | .s4 => ['s', '4']
  | .s5 => ['s', '5']
  | .s6 => ['s', '6']
  | .s7 => ['s', '7']
  | .s8 => ['s', '8']
  | .s9 => ['s', '9']
  | .s10 => ['s', '1', '0']
  | .s11 => ['s', '1', '1']
  | .a0 => ['a', '0']
  | .a1 => ['a', '1']
  | .a2 => ['a', '2']
  | .a3 => ['a', '3']
  | .a4 => ['a', '4']
  | .a5 => ['a', '5']
  | .a6 => ['a', '6']
  | .a7 => ['a', '7']

/-- R58: an entry reads `name ($regno): 0xXXXXXXXX`, give or take padding and letter case. -/
def RegEntry.text (upper : Bool) (e : RegEntry) : List Char :=
  e.name.text ++ [' ', '(', '$'] ++ decimal e.regno ++ [')', ':', ' ', '0', 'x'] ++ hexDigits upper 8 e.value.toNat

/-- R67: a row reads `0xADDR: b0 b1 b2 b3 (0xWORD)`. The spec leaves open how many digits the address, each byte and
the word have: each number is an argument. DESIGN CHOICE (notes/assumptions/17.md): a number is filled with zeros up to its
digits, and digits above them are dropped. -/
def MemRow.text (upper : Bool) (addressDigits byteDigits wordDigits : Nat) (r : MemRow) : List Char :=
  ['0', 'x'] ++ hexDigits upper addressDigits r.address ++ [':', ' '] ++
    hexDigits upper byteDigits r.b0.toNat ++ [' '] ++ hexDigits upper byteDigits r.b1.toNat ++ [' '] ++
    hexDigits upper byteDigits r.b2.toNat ++ [' '] ++ hexDigits upper byteDigits r.b3.toNat ++
    [' ', '(', '0', 'x'] ++ hexDigits upper wordDigits r.word.toNat ++ [')']

end Sys2Proof.Machine
end

