-- ==== Sys2Proof/Tests/Slice0.lean ====
section
/-! SUPPORT. Tests: the refusals of `wellFormed`, the decoding of every command from its row of the code tables, the
spec's own vectors (`95_test_vectors.md`, and the examples in the rules), and for every statement with hypotheses a
concrete case that meets them all. -/

open Sys2Proof Sys2Proof.Machine Sys2Proof.Safety

namespace Sys2Proof.Tests

/-! ### Ill-formed terms -/

theorem test_wellFormed_refuses_assigned_alu_selectors :
    (wellFormed (.aluNone 1 0#32 0#32), wellFormed (.aluNone 21 0#32 0#32)) = (false, false) := by decide

theorem test_wellFormed_refuses_assigned_memory_selectors :
    (wellFormed (.memBadfn .dmem 0#32 0 0), wellFormed (.memBadfn .imem 0#32 0 1)) = (false, false) := by decide

/-! ### Decoding: the bits of R45, R48, R49, R50, R51 written out, operands told apart -/

theorem test_decode_alu_arithmetic_and_logic :
    decode (.alufn 0b00001 5#32 6#32) = .command (.add 5#32 6#32) ∧
    decode (.alufn 0b00010 5#32 6#32) = .command (.sub 5#32 6#32) ∧
    decode (.alufn 0b00011 5#32 6#32) = .command (.and 5#32 6#32) ∧
    decode (.alufn 0b00100 5#32 6#32) = .command (.or 5#32 6#32) ∧
    decode (.alufn 0b00101 5#32 6#32) = .command (.xor 5#32 6#32) ∧
    decode (.alufn 0b00110 5#32 6#32) = .command (.slt 5#32 6#32) ∧
    decode (.alufn 0b00111 5#32 6#32) = .command (.sltu 5#32 6#32) := by decide

theorem test_decode_alu_shifts_and_rest :
    decode (.alufn 0b01000 5#32 6#32) = .command (.sll 5#32 6#32) ∧
    decode (.alufn 0b01001 5#32 6#32) = .command (.sra 5#32 6#32) ∧
    decode (.alufn 0b01010 5#32 6#32) = .command (.srl 5#32 6#32) ∧
    decode (.alufn 0b01011 5#32 6#32) = .command (.copy1 5#32 6#32) ∧
    decode (.alufn 0b01100 5#32 6#32) = .command (.copy2 5#32 6#32) ∧
    decode (.alufn 0b01101 5#32 6#32) = .command (.seq 5#32 6#32) ∧
    decode (.alufn 0b01110 5#32 6#32) = .command (.mul 5#32 6#32) := by decide

theorem test_decode_alu_vector :
    decode (.alufn 0b01111 5#32 6#32) = .command (.vunpack 5#32 6#32) ∧
    decode (.alufn 0b10000 5#32 6#32) = .command (.vpack 5#32 6#32) ∧
    decode (.alufn 0b10001 5#32 6#32) = .command (.vbcast 5#32 6#32) ∧
    decode (.alufn 0b10010 5#32 6#32) = .command (.vaddi 5#32 6#32) ∧
    decode (.alufn 0b10011 5#32 6#32) = .command (.vadd 5#32 6#32) ∧
    decode (.alufn 0b10100 5#32 6#32) = .command (.vsub 5#32 6#32) ∧
    decode (.alufn 0b10101 5#32 6#32) = .command (.vmul 5#32 6#32) := by decide

theorem test_decode_alu_none_rows :
    decode (.alufn 0b00000 5#32 6#32) = .command (.aluNone 0 5#32 6#32) ∧
    decode (.alufn 0b10110 5#32 6#32) = .command (.aluNone 22 5#32 6#32) ∧
    decode (.alufn 0b10111 5#32 6#32) = .command (.aluNone 23 5#32 6#32) ∧
    decode (.alufn 0b11000 5#32 6#32) = .command (.aluNone 24 5#32 6#32) ∧
    decode (.alufn 0b11111 5#32 6#32) = .command (.aluNone 31 5#32 6#32) ∧
    decode (.alufn 32 5#32 6#32) = .command (.aluNone 32 5#32 6#32) := by decide

theorem test_decode_adder_and_register_file :
    decode (.adder 5#32 (some 6#32)) = .command (.adder 5#32 6#32) ∧
    decode (.adder 5#32 none) = .command (.adder 5#32 4#32) ∧
    decode (.rfrd 0b00101) = .command (.rfRead 5) ∧
    decode (.rfwr true 0b00110 7) = .command (.rfWrite 6 7) ∧
    decode (.rfwr false 0b00110 7) = .noCommand .writeDisabled ∧
    decode .rfDump = .command .rfDump := by decide

theorem test_decode_memory_access :
    decode (.memacc .dmem false 8#32 9 0b01) = .command (.memNop .dmem 8#32 9 1) ∧
    decode (.memacc .dmem true 8#32 9 0b00) = .command (.memRead .dmem 8#32 9) ∧
    decode (.memacc .imem true 8#32 9 0b01) = .command (.memWrite .imem 8#32 9) ∧
    decode (.memacc .dmem true 8#32 9 0b10) = .command (.memBadfn .dmem 8#32 9 2) ∧
    decode (.memacc .dmem true 8#32 9 0b11) = .command (.memBadfn .dmem 8#32 9 3) := by decide

theorem test_decode_host :
    decode (.copyTo .imem 8 [1#8, 2#8]) = .command (.copyTo .imem 8 [1#8, 2#8]) ∧
    decode (.copyFrom .dmem 8 3) = .command (.copyFrom .dmem 8 3) ∧
    decode (.memDump .dmem true) = .command (.memDump .dmem true) ∧
    decode .cycle = .noCommand .cycleMark := by decide

theorem test_decodeTableWord_reads_alu_keys :
    decodeTableWord 8 0b00001 = some (.add 0#32 0#32) ∧
    decodeTableWord 8 0b10101 = some (.vmul 0#32 0#32) ∧
    decodeTableWord 8 0b11000 = some (.aluNone 24 0#32 0#32) ∧
    decodeTableWord 3 0b101 = some (.memWrite .dmem 0#32 0) := by decide

/-! ### A small machine -/

/-- Four words of instruction memory at 0, four words of data memory at 0x1000. -/
def smallConfig : Config :=
  { imem := { base := 0, size := 16, granularity := 4 }, dmem := { base := 0x1000, size := 16, granularity := 4 } }

/-- The small machine with the words `0x11223344` at 0x1000 and `0xA1B2C3D4` at 0x100C, and 7 in register 5. -/
def small : State :=
  { State.initial smallConfig with
    regs := (Vector.replicate 32 0#32).set 5 7#32
    dmem := [(0x1000, 0x44#8), (0x1001, 0x33#8), (0x1002, 0x22#8), (0x1003, 0x11#8), (0x100C, 0xD4#8),
      (0x100D, 0xC3#8), (0x100E, 0xB2#8), (0x100F, 0xA1#8)] }

/-- The outputs of a command, where it answers. -/
def outputOf (o : Outcome) : Option Output :=
  match o with
  | .next t => some t.output
  | _ => none

/-- The failure that a command raises, where it raises one. -/
def faultOf (o : Outcome) : Option Fault :=
  match o with
  | .fault f => some f
  | _ => none

/-- A byte after a command, where it answers. -/
def byteAfter (m : MemId) (a : Nat) (o : Outcome) : Option Byte :=
  match o with
  | .next t => some ((t.mem m).readByte a)
  | _ => none

/-- A register after a command, where it answers. -/
def regAfter (r : Fin 32) (o : Outcome) : Option Word :=
  match o with
  | .next t => some (t.readReg r)
  | _ => none

theorem test_small_inv : inv small = true := by decide
theorem test_reset_inv : inv State.reset = true := by decide

/-! ### The scalar ALU: section 2.5 of the vectors -/

theorem test_add_wraps : resultWord (.add 0xFFFFFFFF#32 0x00000001#32) small = some 0x00000000#32 := by decide
theorem test_sub_operand_order : resultWord (.sub 0x00000003#32 0x00000005#32) small = some 0xFFFFFFFE#32 := by decide
theorem test_and : resultWord (.and 0xF0F0F0F0#32 0x0FF00FF0#32) small = some 0x00F000F0#32 := by decide
theorem test_or : resultWord (.or 0xF0F0F0F0#32 0x0FF00FF0#32) small = some 0xFFF0FFF0#32 := by decide
theorem test_xor : resultWord (.xor 0xF0F0F0F0#32 0x0FF00FF0#32) small = some 0xFF00FF00#32 := by decide
theorem test_slt_signed : resultWord (.slt 0x80000000#32 0x7FFFFFFF#32) small = some 1#32 := by decide
theorem test_slt_operand_order : resultWord (.slt 0x00000000#32 0xFFFFFFFF#32) small = some 0#32 := by decide
theorem test_sltu_unsigned : resultWord (.sltu 0x80000000#32 0x7FFFFFFF#32) small = some 0#32 := by decide
theorem test_sltu_operand_order : resultWord (.sltu 0x00000000#32 0xFFFFFFFF#32) small = some 1#32 := by decide
theorem test_sll_masks_amount : resultWord (.sll 0x00000003#32 0x00000021#32) small = some 0x00000006#32 := by decide
theorem test_sll_drops_top : resultWord (.sll 0x80000001#32 0x00000001#32) small = some 0x00000002#32 := by decide
theorem test_sra_masks_amount : resultWord (.sra 0xF0000000#32 0x00000024#32) small = some 0xFF000000#32 := by decide
theorem test_sra_fills_sign : resultWord (.sra 0x80000000#32 0x0000001F#32) small = some 0xFFFFFFFF#32 := by decide
theorem test_srl_masks_amount : resultWord (.srl 0xF0000000#32 0x00000024#32) small = some 0x0F000000#32 := by decide
theorem test_copy1 : resultWord (.copy1 0xCAFEBABE#32 0x12345678#32) small = some 0xCAFEBABE#32 := by decide
theorem test_copy2 : resultWord (.copy2 0xCAFEBABE#32 0x12345678#32) small = some 0x12345678#32 := by decide
theorem test_seq_equal : resultWord (.seq 0x00000007#32 0x00000007#32) small = some 1#32 := by decide
theorem test_seq_top_bit : resultWord (.seq 0x80000000#32 0x00000000#32) small = some 0#32 := by decide
theorem test_mul_low_half : resultWord (.mul 0x0001FFFF#32 0x0001FFFF#32) small = some 0xFFFC0001#32 := by decide
theorem test_mul_wraps : resultWord (.mul 0x80000000#32 0x00000002#32) small = some 0x00000000#32 := by decide
theorem test_aluNone : resultWord (.aluNone 31 0x00000001#32 0x00000001#32) small = some 0x00000000#32 := by decide

/-! ### The Adder: section 2.4 -/

theorem test_adder_backward : resultWord (.adder 0x00001010#32 0xFFFFFFF0#32) small = some 0x00001000#32 := by decide
theorem test_adder_default_wraps :
    outputOf (step { small with input := [.adder 0xFFFFFFFE#32 none] }) = some (.word 0x00000002#32) := by decide

/-! ### The vector ALU: section 2.6 -/

theorem test_vunpack : resultWord (.vunpack 0x12345678#32 0x00000009#32) small = some 0x03415878#32 := by decide
theorem test_vunpack_ignores_tag : resultWord (.vunpack 0xAB102030#32 0xFFFFFFFF#32) small = some 0x01008030#32 := by decide
theorem test_vpack_clamps : resultWord (.vpack 0x0FF400FE#32 0x00000080#32) small = some 0x80FFFFFE#32 := by decide
theorem test_vpack_tag : resultWord (.vpack 0x01509435#32 0x000001FF#32) small = some 0xFF152535#32 := by decide
theorem test_vbcast : resultWord (.vbcast 0x12345678#32 0x00000000#32) small = some 0x0781E078#32 := by decide
theorem test_vbcast_ignores_upper : resultWord (.vbcast 0xFFFFFF00#32 0x00000055#32) small = some 0x00000000#32 := by decide
theorem test_vaddi_isolated : resultWord (.vaddi 0x300C06FF#32 0x000000FF#32) small = some 0x3FF003FE#32 := by decide
theorem test_vaddi_wide_immediate : resultWord (.vaddi 0x00100803#32 0x00000105#32) small = some 0x00601C08#32 := by decide
theorem test_vadd_isolated : resultWord (.vadd 0x20080200#32 0x2007FE01#32) small = some 0x000FFC01#32 := by decide
theorem test_vadd_upper_bits : resultWord (.vadd 0xC0000000#32 0xC0000000#32) small = some 0x00000000#32 := by decide
theorem test_vsub_operand_order : resultWord (.vsub 0x00501405#32 0x00A01400#32) small = some 0x3FB00005#32 := by decide
theorem test_vsub_upper_bits : resultWord (.vsub 0xFFFFFFFF#32 0x40000000#32) small = some 0x3FFFFFFF#32 := by decide
theorem test_vmul_rounds : resultWord (.vmul 0x0FF3FCFF#32 0x0FF40101#32) small = some 0x0FE3FD00#32 := by decide
theorem test_vmul_masks : resultWord (.vmul 0x3FFFFFFF#32 0x100404FF#32) small = some 0x3FF00FFB#32 := by decide

/-! ### The Register File: section 2.1 and the examples of R57, R58 -/

theorem test_rfRead_zero : resultWord (.rfRead 0) { small with regs := Vector.replicate 32 9#32 } = some 0#32 := by decide
theorem test_rfRead_out_of_range : faultOf (exec (.rfRead 32) small) = some (.regOutOfRange 32) := by decide
theorem test_rfWrite_truncates : regAfter 7 (exec (.rfWrite 7 0x100000005) small) = some 5#32 := by decide
theorem test_rfWrite_keeps_others : regAfter 5 (exec (.rfWrite 7 1) small) = some 7#32 := by decide
theorem test_rfDump_entry :
    (match outputOf (exec .rfDump small) with
      | some (.regDump es) => es[5]?
      | _ => none) = some ⟨.t0, 5, 7#32⟩ := by decide
theorem test_regEntry_text :
    RegEntry.text true ⟨.a0, 10, 0x2A#32⟩ =
      ['a', '0', ' ', '(', '$', '1', '0', ')', ':', ' ', '0', 'x', '0', '0', '0', '0', '0', '0', '2', 'A'] := by decide

/-! ### The checked path: section 2.2 -/

theorem test_memRead_little_endian :
    outputOf (exec (.memRead .dmem 0x1000#32 0xFFFFFFFF) small) = some (.access 0x11223344#32 true) := by decide
theorem test_memRead_past_end :
    outputOf (exec (.memRead .dmem 0x1010#32 0) small) = some (.access 0#32 false) := by decide
theorem test_memWrite_lowest_first :
    byteAfter .dmem 0x1004 (exec (.memWrite .dmem 0x1004#32 0xFF152535) small) = some 0x35#8 := by decide
theorem test_memWrite_misaligned :
    (outputOf (exec (.memWrite .dmem 0x1002#32 0x55555555) small),
      byteAfter .dmem 0x1002 (exec (.memWrite .dmem 0x1002#32 0x55555555) small)) =
      (some (.access 0#32 false), some 0x22#8) := by decide
theorem test_memNop_ignores_ports :
    outputOf (exec (.memNop .dmem 0xFFFFFFFF#32 0x12345678 1) small) = some (.access 0#32 true) := by decide
theorem test_memBadfn_fails :
    outputOf (exec (.memBadfn .dmem 0x1000#32 0 2) small) = some (.access 0#32 false) := by decide
theorem test_imem_address_fails_on_dmem :
    outputOf (exec (.memRead .imem 0x1000#32 0) small) = some (.access 0#32 false) := by decide

/-! ### The host's path: section 2.3 and the example of R67 -/

theorem test_copyTo_unaligned :
    (byteAfter .dmem 0x1001 (exec (.copyTo .dmem 0x1001 [0xAA#8, 0xBB#8]) small),
      byteAfter .dmem 0x1003 (exec (.copyTo .dmem 0x1001 [0xAA#8, 0xBB#8]) small)) = (some 0xAA#8, some 0x11#8) := by
  decide
theorem test_copyTo_past_end :
    faultOf (exec (.copyTo .dmem 0x100F [1#8, 2#8]) small) = some (.rangeError 0x100F 2) := by decide
theorem test_copyFrom_lowest_first :
    outputOf (exec (.copyFrom .dmem 0x100C 4) small) = some (.bytes [0xD4#8, 0xC3#8, 0xB2#8, 0xA1#8]) := by decide
theorem test_copyFrom_empty_at_the_bound :
    (outputOf (exec (.copyFrom .dmem 0x1010 0) small), faultOf (exec (.copyFrom .dmem 0x1011 0) small)) =
      (some (.bytes []), some (.rangeError 0x1011 0)) := by decide
theorem test_memDump_rows :
    (match outputOf (exec (.memDump .dmem false) small) with
      | some (.memDump ls) => (ls.length, ls[0]?)
      | _ => (0, none)) =
      (4, some (.row ⟨0x1000, 0x44#8, 0x33#8, 0x22#8, 0x11#8, 0x11223344#32⟩)) := by decide
theorem test_memRow_text :
    MemRow.text false 8 2 8 ⟨0x1004, 0x35#8, 0x25#8, 0x15#8, 0xFF#8, 0xFF152535#32⟩ =
      ['0', 'x', '0', '0', '0', '0', '1', '0', '0', '4', ':', ' ', '3', '5', ' ', '2', '5', ' ', '1', '5', ' ', 'f', 'f',
        ' ', '(', '0', 'x', 'f', 'f', '1', '5', '2', '5', '3', '5', ')'] := by decide

/-! ### The step from reset -/

theorem test_step_runs_fetch_word :
    outputOf (step (State.reset.withFetchWord 8 0b01101)) = some (.word 1#32) := by decide
theorem test_step_idles_from_reset : outputOf (step State.reset) = some .none := by decide
theorem test_step_disabled_write :
    regAfter 5 (step { small with input := [.rfwr false 5 9] }) = some 7#32 := by decide

/-! ### Witnesses: for every statement with hypotheses, a case that meets them -/

theorem small_meets : meetsConstraints small.config := by
  refine ⟨fun a => ?_, by decide, by decide, by decide⟩
  simp only [small, State.initial, smallConfig]
  omega

theorem witness_StepIssuesDecodedCommand :
    (small.withInput [.alufn 1 2#32 3#32, .cycle]).input = .alufn 1 2#32 3#32 :: [.cycle] ∧
    decode (.alufn 1 2#32 3#32) = .command (.add 2#32 3#32) := by decide

theorem witness_NoCommandChangesNothing :
    small.input = [] ∧ (small.withInput [.rfwr false 5 9]).input = .rfwr false 5 9 :: [] ∧
    (small.withInput [.cycle, .rfDump]).input = .cycle :: [.rfDump] := by decide

theorem witness_DecodeInvertsEncode :
    wellFormed (.aluNone 0 1#32 2#32) = true ∧ wellFormed (.aluNone 22 1#32 2#32) = true ∧
    wellFormed (.memBadfn .dmem 3#32 4 2) = true ∧ wellFormed (.vmul 1#32 2#32) = true := by decide

theorem witness_EncodeInvertsDecode :
    decode (.adder 1#32 none) = .command (.adder 1#32 4#32) ∧
    decode (.alufn 0 1#32 2#32) = .command (.aluNone 0 1#32 2#32) ∧
    decode (.memacc .dmem true 3#32 4 2) = .command (.memBadfn .dmem 3#32 4 2) := by decide

theorem witness_AluAndAdderArePure : isPure (.aluNone 0 1#32 2#32) = true ∧ isPure (.adder 1#32 2#32) = true := by decide

theorem witness_EqualityTestComparesAllBits : (7#32 : Word) = 7#32 ∧ (0x80000000#32 : Word) ≠ 0#32 := by decide

theorem witness_UnassignedSelectorYieldsZero :
    ((0 : Nat) = 0 ∨ 22 ≤ 0) ∧ ((22 : Nat) = 0 ∨ 22 ≤ 22) ∧
    (small.withInput [.alufn 22 1#32 2#32]).input = .alufn 22 1#32 2#32 :: [] := by decide

theorem witness_AdderWrapsWithDefaultFour :
    (small.withInput [.adder 0xFFFFFFFC#32 none]).input = .adder 0xFFFFFFFC#32 none :: [] := by decide

theorem witness_LanesDoNotInterfere :
    0 < 3 ∧ laneNat 0x3FF003FF#32 0 = laneNat 0x3FF#32 0 ∧ laneNat 0x00100001#32 0 = laneNat 1#32 0 ∧
    2 < 3 ∧ laneNat 0x3FF003FF#32 2 = laneNat 0xFFF00000#32 2 ∧ laneNat 0x00100001#32 2 = laneNat 0x00100400#32 2 := by
  decide

theorem witness_RegisterWriteStoresTruncatedValue : (0 : Int) ≤ 0 ∧ (0 : Int) < 32 ∧ (0 : Int) ≤ 31 ∧ (31 : Int) < 32 := by
  decide

theorem witness_RegisterWriteThenReadReturnsValue : (1 : Int) ≤ 1 ∧ (1 : Int) < 32 ∧ (1 : Int) ≤ 31 ∧ (31 : Int) < 32 := by
  decide

theorem witness_RegisterNumberOutOfRangeRaises :
    ((-1 : Int) < 0 ∨ 32 ≤ (-1 : Int)) ∧ ((32 : Int) < 0 ∨ 32 ≤ (32 : Int)) := by decide

theorem witness_AddressCheckCoversTheWord :
    meetsConstraints small.config ∧ addressPasses (small.spec .dmem) (0x1000#32 : Word).toNat ∧
    addressPasses (small.spec .dmem) (0x100C#32 : Word).toNat := by
  refine ⟨small_meets, ?_, ?_⟩ <;> unfold addressPasses <;> decide

theorem witness_DisabledAccessSucceeds :
    (small.withInput [.memacc .dmem false 0x1002#32 6 3]).input = .memacc .dmem false 0x1002#32 6 3 :: [] := by decide

theorem witness_ReadReturnsLittleEndianWord :
    addressPasses (small.spec .dmem) (0x100C#32 : Word).toNat ∧ addressPasses (small.spec .imem) (0#32 : Word).toNat := by
  unfold addressPasses; decide

theorem witness_WriteStoresLittleEndianWord :
    (small.mem .dmem).wf = true ∧ addressPasses (small.spec .dmem) (0x100C#32 : Word).toNat := by
  unfold addressPasses; decide

theorem witness_WriteThenReadReturnsWord :
    (small.mem .imem).wf = true ∧ addressPasses (small.spec .imem) (0x0C#32 : Word).toNat := by
  unfold addressPasses; decide

theorem witness_FailedAccessChangesNothing :
    ¬ addressPasses (small.spec .dmem) (0x0FFC#32 : Word).toNat ∧
    ¬ addressPasses (small.spec .dmem) (0x1010#32 : Word).toNat ∧
    ¬ addressPasses (small.spec .dmem) (0x1001#32 : Word).toNat := by
  unfold addressPasses; decide

theorem witness_UnrecognisedFunctionFails :
    2 ≤ 2 ∧ (small.withInput [.memacc .dmem true 0x1000#32 0 2]).input = .memacc .dmem true 0x1000#32 0 2 :: [] := by decide

theorem witness_AccessDecidesInOrder :
    (small.withInput [.memacc .dmem false 0x1002#32 0 0]).input = .memacc .dmem false 0x1002#32 0 0 :: [] ∧
    (small.withInput [.memacc .dmem true 0x1010#32 0 0]).input = .memacc .dmem true 0x1010#32 0 0 :: [] ∧
    ¬ addressPasses (small.spec .dmem) (0x1010#32 : Word).toNat ∧
    (small.withInput [.memacc .dmem true 0x100C#32 5 1]).input = .memacc .dmem true 0x100C#32 5 1 :: [] ∧
    addressPasses (small.spec .dmem) (0x100C#32 : Word).toNat ∧ (small.mem .dmem).wf = true := by
  unfold addressPasses; decide

theorem witness_CopyToStoresBytes :
    (small.mem .dmem).wf = true ∧ (small.spec .dmem).base ≤ 0x1001 ∧
    0x1001 + [1#8, 2#8, 3#8].length ≤ (small.spec .dmem).base + (small.spec .dmem).size ∧
    0x1010 + ([] : List Byte).length ≤ (small.spec .dmem).base + (small.spec .dmem).size := by decide

theorem witness_CopyFromReturnsBytes :
    (small.spec .dmem).base ≤ 0x100D ∧ 0x100D + 3 ≤ (small.spec .dmem).base + (small.spec .dmem).size := by decide

theorem witness_UncontainedRangeRaises :
    [1#8, 2#8].length = 2 ∧
    (0x0FFF < (small.spec .dmem).base ∨ (small.spec .dmem).base + (small.spec .dmem).size < 0x0FFF + 2) ∧
    (0x100F < (small.spec .dmem).base ∨ (small.spec .dmem).base + (small.spec .dmem).size < 0x100F + 2) := by decide

theorem witness_CopyFromReturnsWhatCopyToStored :
    (small.mem .imem).wf = true ∧ (small.spec .imem).base ≤ 0 ∧
    0 + (List.replicate 16 0x5A#8).length ≤ (small.spec .imem).base + (small.spec .imem).size := by decide

theorem witness_BothPathsSeeTheSameBytes :
    meetsConstraints small.config ∧ (small.mem .dmem).wf = true ∧
    addressPasses (small.spec .dmem) (0x1004#32 : Word).toNat := by
  refine ⟨small_meets, by decide, ?_⟩
  unfold addressPasses; decide

theorem witness_SkippingDumpKeepsLastAndNonzeroRows :
    meetsConstraints small.config ∧ (memRow (small.mem .dmem) 0x1004).word = 0#32 ∧
    (memRow (small.mem .dmem) 0x1000).word ≠ 0#32 := ⟨small_meets, by decide, by decide⟩

theorem witness_ConstructionChecksConfiguration :
    meetsConstraints smallConfig ∧ ¬ meetsConstraints { imem := smallConfig.imem, dmem := smallConfig.imem } :=
  ⟨small_meets, fun h => h.1 0 (by decide)⟩

theorem witness_InvariantHoldsAfterConstruction : construct smallConfig = .next (State.initial smallConfig) := by rfl

theorem witness_StepKeepsInvariant :
    inv (small.withInput [.copyTo .dmem 0x1001 [0#8]]) = true ∧
    ∃ t, step (small.withInput [.copyTo .dmem 0x1001 [0#8]]) = .next t ∧ (t.mem .dmem).length = 7 :=
  ⟨by decide, _, rfl, by decide⟩

theorem witness_ConfigurationNeverChanges :
    ∃ t, run 2 (small.withInput [.memacc .dmem true 0x1004#32 1 1, .rfrd 5]) = .next t ∧ t.output = .word 7#32 :=
  ⟨_, rfl, by decide⟩

theorem witness_OnlyWritersChangeState :
    (∃ t, exec (.memWrite .dmem 0x1004#32 1) small = .next t) ∧ writesRegister (.memWrite .dmem 0x1004#32 1) = false ∧
    storesTo (.memWrite .dmem 0x1004#32 1) ≠ some .imem := ⟨⟨_, rfl⟩, by decide, by decide⟩

theorem witness_EachInstanceAnswersOnlyItsRange :
    meetsConstraints small.config ∧ MemId.imem ≠ MemId.dmem ∧ addressPasses (small.spec .imem) (0x0C#32 : Word).toNat := by
  refine ⟨small_meets, by decide, ?_⟩
  unfold addressPasses; decide

theorem witness_CommandsStopExactlyWhereCatalogued :
    raises small (.rfRead 32) = some (.regOutOfRange 32) ∧ raises small (.rfRead 31) = none ∧
    raises small (.copyFrom .dmem 0x1011 0) = some (.rangeError 0x1011 0) ∧
    raises small (.copyFrom .dmem 0x1010 0) = none := by decide

theorem witness_MemoryHoldsLatestStore :
    small.imem.wf = true ∧ small.dmem.wf = true ∧
    ∃ t, run 2 (small.withInput [.memacc .dmem true 0x1004#32 1 1, .copyTo .dmem 0x1004 [9#8]]) = .next t ∧
      (t.mem .dmem).readByte 0x1004 = 9#8 := ⟨by decide, by decide, _, rfl, by decide⟩

/-- Two cycles: register 5 is written in the first and, by the second's RF.WRITE, only after it was read. -/
theorem witness_ReadsOfACycleSeeItsStart :
    ∃ s s0 t : State,
      s.input = [.rfwr true 5 8, .cycle] ++ [.alufn 1 2#32 3#32] ++ .rfrd ((5 : Fin 32).val) :: [.rfwr true 5 9] ∧
      disciplined s.input = true ∧ [Input.rfwr true 5 8, .cycle].getLast? = some .cycle ∧
      Input.cycle ∉ [Input.alufn 1 2#32 3#32] ∧
      run [Input.rfwr true 5 8, .cycle].length s = .next s0 ∧ run [Input.alufn 1 2#32 3#32].length s0 = .next t ∧
      s0.readReg 5 = 8#32 :=
  ⟨small.withInput [.rfwr true 5 8, .cycle, .alufn 1 2#32 3#32, .rfrd 5, .rfwr true 5 9], _, _, by decide, by decide,
    by decide, by decide, rfl, rfl, by decide⟩

end Sys2Proof.Tests
end

section
/-! What each ALU and Adder command answers, one equation per command (R68, R70 to R84, R87 to R93): the result word
is written out from the command's operands alone, and the state changes in its outputs only. -/

namespace Sys2Proof.Machine

variable (a b : Word) (s : State)

@[simp] theorem exec_add : exec (.add a b) s = .next (s.withOutput (.word (a + b))) := rfl
@[simp] theorem exec_sub : exec (.sub a b) s = .next (s.withOutput (.word (a - b))) := rfl
@[simp] theorem exec_and : exec (.and a b) s = .next (s.withOutput (.word (a &&& b))) := rfl
@[simp] theorem exec_or : exec (.or a b) s = .next (s.withOutput (.word (a ||| b))) := rfl
@[simp] theorem exec_xor : exec (.xor a b) s = .next (s.withOutput (.word (a ^^^ b))) := rfl
@[simp] theorem exec_slt : exec (.slt a b) s = .next (s.withOutput (.word (truthWord (a.slt b)))) := rfl
@[simp] theorem exec_sltu : exec (.sltu a b) s = .next (s.withOutput (.word (truthWord (a.ult b)))) := rfl
@[simp] theorem exec_sll : exec (.sll a b) s = .next (s.withOutput (.word (a <<< shiftAmount b))) := rfl
@[simp] theorem exec_sra : exec (.sra a b) s = .next (s.withOutput (.word (a.sshiftRight (shiftAmount b)))) := rfl
@[simp] theorem exec_srl : exec (.srl a b) s = .next (s.withOutput (.word (a >>> shiftAmount b))) := rfl
@[simp] theorem exec_copy1 : exec (.copy1 a b) s = .next (s.withOutput (.word a)) := rfl
@[simp] theorem exec_copy2 : exec (.copy2 a b) s = .next (s.withOutput (.word b)) := rfl
@[simp] theorem exec_seq : exec (.seq a b) s = .next (s.withOutput (.word (truthWord (a == b)))) := rfl
@[simp] theorem exec_mul : exec (.mul a b) s = .next (s.withOutput (.word (a * b))) := rfl
@[simp] theorem exec_aluNone (fn : Nat) (a b : Word) (s : State) :
    exec (.aluNone fn a b) s = .next (s.withOutput (.word 0#32)) := rfl

@[simp] theorem exec_vunpack : exec (.vunpack a b) s = .next (s.withOutput (.word
    (mklanes (byteLane (channel a 2)) (byteLane (channel a 1)) (byteLane (channel a 0))))) := rfl
@[simp] theorem exec_vpack : exec (.vpack a b) s = .next (s.withOutput (.word
    (mkraw (lowByte b) (saturate (lane a 2)) (saturate (lane a 1)) (saturate (lane a 0))))) := rfl
@[simp] theorem exec_vbcast : exec (.vbcast a b) s = .next (s.withOutput (.word
    (mklanes (byteLane (lowByte a)) (byteLane (lowByte a)) (byteLane (lowByte a))))) := rfl
@[simp] theorem exec_vaddi : exec (.vaddi a b) s = .next (s.withOutput (.word
    (mklanes (lane a 2 + byteLane (lowByte b)) (lane a 1 + byteLane (lowByte b))
      (lane a 0 + byteLane (lowByte b))))) := rfl
@[simp] theorem exec_vadd : exec (.vadd a b) s = .next (s.withOutput (.word (lanewise (· + ·) a b))) := rfl
@[simp] theorem exec_vsub : exec (.vsub a b) s = .next (s.withOutput (.word (lanewise (· - ·) a b))) := rfl
@[simp] theorem exec_vmul : exec (.vmul a b) s = .next (s.withOutput (.word (lanewise laneScale a b))) := rfl

@[simp] theorem exec_adder : exec (.adder a b) s = .next (s.withOutput (.word (a + b))) := rfl

end Sys2Proof.Machine
end

section
/-! The scope of the block (00_scope.md): a step carries out one command, and the ALU and the Adder are pure. -/

namespace Sys2Proof.Proofs

open Sys2Proof.Machine Sys2Proof.Safety

/-- Settles O6: in each command's equation the result word stands before the state, so one word serves every state;
the commands of the Register File and of the memories are not pure. -/
theorem aluAndAdderArePure : Obligations.AluAndAdderArePure := by
  unfold Obligations.AluAndAdderArePure
  intro i hpure
  cases i with
  | add a b => exact ⟨_, exec_add a b⟩
  | sub a b => exact ⟨_, exec_sub a b⟩
  | and a b => exact ⟨_, exec_and a b⟩
  | or a b => exact ⟨_, exec_or a b⟩
  | xor a b => exact ⟨_, exec_xor a b⟩
  | slt a b => exact ⟨_, exec_slt a b⟩
  | sltu a b => exact ⟨_, exec_sltu a b⟩
  | sll a b => exact ⟨_, exec_sll a b⟩
  | sra a b => exact ⟨_, exec_sra a b⟩
  | srl a b => exact ⟨_, exec_srl a b⟩
  | copy1 a b => exact ⟨_, exec_copy1 a b⟩
  | copy2 a b => exact ⟨_, exec_copy2 a b⟩
  | seq a b => exact ⟨_, exec_seq a b⟩
  | mul a b => exact ⟨_, exec_mul a b⟩
  | vunpack a b => exact ⟨_, exec_vunpack a b⟩
  | vpack a b => exact ⟨_, exec_vpack a b⟩
  | vbcast a b => exact ⟨_, exec_vbcast a b⟩
  | vaddi a b => exact ⟨_, exec_vaddi a b⟩
  | vadd a b => exact ⟨_, exec_vadd a b⟩
  | vsub a b => exact ⟨_, exec_vsub a b⟩
  | vmul a b => exact ⟨_, exec_vmul a b⟩
  | aluNone fn a b => exact ⟨_, exec_aluNone fn a b⟩
  | adder a b => exact ⟨_, exec_adder a b⟩
  | rfRead | rfWrite | memNop | memRead | memWrite | memBadfn | copyTo | copyFrom | memDump | rfDump =>
    exact nomatch hpure

/-- Settles O1: the step takes the pending input, and what it then does is read off what that input spells. -/
theorem stepIssuesDecodedCommand : Obligations.StepIssuesDecodedCommand := by
  unfold Obligations.StepIssuesDecodedCommand
  intro s x rest i hinput hdecode
  rw [step_of_input hinput, hdecode]

end Sys2Proof.Proofs
end

section
/-! What the commands of the Register File answer for a register in range (R14, R56, R57), and what construction
leaves (R24, R25). -/

namespace Sys2Proof.Machine

/-- R14: register 0 reads 0, whatever its cell holds. -/
@[simp] theorem State.readReg_zero (s : State) : s.readReg 0 = 0#32 := rfl

/-- R14: a write to register 0 is discarded. -/
@[simp] theorem State.writeReg_zero (s : State) (v : Word) : s.writeReg 0 v = s := rfl

@[simp] theorem regIndex_val (r : Fin 32) : regIndex (r.val : Int) = some r := regIndex_eq_some.2 rfl

/-- RF.READ of a register in range (R56). -/
theorem exec_rfRead (r : Fin 32) (s : State) :
    exec (.rfRead r.val) s = .next (s.withOutput (.word (s.readReg r))) := by
  simp [exec, execRfRead]

/-- RF.WRITE of a register in range (R57). -/
theorem exec_rfWrite (r : Fin 32) (value : Int) (s : State) :
    exec (.rfWrite r.val value) s = .next ((s.writeReg r (trunc32 value)).withOutput .none) := by
  simp [exec, execRfWrite]

/-- Every register reads 0 after construction (R24, D13). -/
@[simp] theorem State.initial_readReg (c : Config) (r : Fin 32) : (State.initial c).readReg r = 0#32 := by
  simp [State.readReg, State.initial]

/-- No byte is listed after construction (R25, D13). -/
@[simp] theorem State.initial_mem (c : Config) (m : MemId) : (State.initial c).mem m = [] := by cases m <;> rfl

@[simp] theorem Memory.readByte_nil (a : Nat) : Memory.readByte [] a = 0#8 := rfl

end Sys2Proof.Machine
end

section
/-! What keeps the invariant: each part of the state is replaced on its own, and a part that is replaced by one that
is good again leaves the invariant standing. What every step keeps, every run keeps. -/

namespace Sys2Proof.Machine

/-- R22 asks the same of both memories. -/
theorem State.spec_valid {s : State} (h : s.config.valid = true) (m : MemId) : (s.spec m).valid = true := by
  obtain ⟨⟨himem, hdmem⟩, -⟩ : (s.config.imem.valid = true ∧ s.config.dmem.valid = true) ∧ _ := by
    simpa only [Config.valid, Bool.and_eq_true] using h
  cases m with
  | imem => exact himem
  | dmem => exact hdmem

/-- A word stored whole in the range lists no address outside it (R60, R63). -/
theorem Memory.within_writeWord {c : MemSpec} {mem : Memory} (h : mem.within c = true) {a : Nat} (w : Word)
    (ha : c.base ≤ a ∧ a + 4 ≤ c.base + c.size) : (mem.writeWord a w).within c = true :=
  Memory.within_writeBytes h _ ha

/-- `State.setMem_mem_other`, with the memory stored to given as `storesTo` gives it. -/
theorem State.setMem_mem_of_some_ne (s : State) {m n : MemId} (v : Memory) (h : some m ≠ some n) :
    (s.setMem m v).mem n = s.mem n :=
  State.setMem_mem_other s v fun e => h (congrArg some e.symm)

/-- A memory is as R21 asks: canonical, and inside its own range. -/
def State.memGood (s : State) (m : MemId) : Prop := (s.mem m).wf = true ∧ (s.mem m).within (s.spec m) = true

/-- Replacing one memory by a good one keeps both good. -/
theorem State.memGood_setMem {s : State} (hmem : ∀ n, s.memGood n) {m : MemId} {v : Memory} (hwf : v.wf = true)
    (hwithin : v.within (s.spec m) = true) (n : MemId) : (s.setMem m v).memGood n := by
  unfold State.memGood at hmem ⊢
  by_cases hn : n = m
  · subst hn
    simpa using And.intro hwf hwithin
  · simpa [State.setMem_mem_other s v hn] using hmem n

end Sys2Proof.Machine

namespace Sys2Proof.Safety

open Sys2Proof.Machine

/-- The invariant, with its clauses on the two memories said of either. -/
theorem inv_iff {s : State} :
    inv s = true ↔ s.config.valid = true ∧ (∀ m, s.memGood m) ∧ s.regs[0] = 0#32 := by
  have both : (∀ m, s.memGood m) ↔ s.memGood .imem ∧ s.memGood .dmem :=
    ⟨fun h => ⟨h _, h _⟩, fun h m => by cases m; exacts [h.1, h.2]⟩
  rw [both]
  simp only [inv, State.memGood, State.mem, State.spec, Bool.and_eq_true, beq_iff_eq]
  tauto

/-- The output ports are no part of the invariant. -/
@[simp] theorem inv_withOutput (s : State) (o : Output) : inv (s.withOutput o) = inv s := rfl

/-- Nor are the inputs still to come. -/
@[simp] theorem inv_withInput (s : State) (l : List Input) : inv (s.withInput l) = inv s := rfl

theorem inv_writeReg {s : State} (h : inv s = true) (r : Fin 32) (v : Word) : inv (s.writeReg r v) = true := by
  obtain ⟨hconfig, hmem, hzero⟩ := inv_iff.1 h
  refine inv_iff.2 ⟨by simpa using hconfig, fun m => ?_, by rw [State.writeReg_cell_zero, hzero]⟩
  simpa [State.memGood] using hmem m

theorem inv_setMem {s : State} (h : inv s = true) {m : MemId} {v : Memory} (hwf : v.wf = true)
    (hwithin : v.within (s.spec m) = true) : inv (s.setMem m v) = true := by
  obtain ⟨hconfig, hmem, hzero⟩ := inv_iff.1 h
  exact inv_iff.2 ⟨by simpa using hconfig, State.memGood_setMem hmem hwf hwithin, by simpa using hzero⟩

/-- A command that answers keeps the invariant: the checks of R60 and R65 let a store reach only its memory's own
range, and R22's multiples of 4 put the last byte of a checked word there too. -/
theorem exec_keeps_inv {i : Instr} {s t : State} (h : inv s = true) (hexec : exec i s = .next t) :
    inv t = true := by
  obtain ⟨hconfig, hmem, -⟩ := inv_iff.1 h
  rcases exec_next hexec with ⟨regno, value, -, hwrite⟩ | ⟨m, address, data, -, hwrite⟩ |
    ⟨m, address, bytes, -, hcopy⟩ | ⟨-, -, o, rfl⟩
  · obtain ⟨r, -, rfl⟩ := execRfWrite_next hwrite
    exact inv_writeReg h r _
  · obtain ⟨hwf, hwithin⟩ := hmem m
    rcases execMemWrite_next hwrite with ⟨haddr, rfl⟩ | ⟨-, rfl⟩
    · have hrange := addrOk_word_in_range (State.spec_valid hconfig m) haddr
      exact inv_setMem h (Memory.wf_writeWord hwf _ _) (Memory.within_writeWord hwithin _ hrange)
    · exact h
  · obtain ⟨hwf, hwithin⟩ := hmem m
    obtain ⟨hrange, rfl⟩ := execCopyTo_next hcopy
    exact inv_setMem h (Memory.wf_writeBytes hwf _ _) (Memory.within_writeBytes hwithin _ (rangeOk_iff.1 hrange))
  · exact h

/-- What every step keeps, every run keeps. -/
theorem run_keeps {P : State → Prop} (hstep : ∀ s t, P s → step s = .next t → P t) {n : Nat} {s t : State}
    (h : P s) (hrun : run n s = .next t) : P t := by
  induction n generalizing s with
  | zero => cases hrun; exact h
  | succ n ih =>
    obtain ⟨u, hu, hrest⟩ := run_succ hrun
    exact ih (hstep s u h hu) hrest

end Sys2Proof.Safety
end

section
/-! The state of the block (10_state.md): what construction leaves, what a command can change, and what every step
and every run keep. -/

namespace Sys2Proof.Proofs

open Sys2Proof.Machine Sys2Proof.Safety

/-- Settles O53: the three ways a step answers are a command, an input that spells none, and nothing pending; the
last two touch nothing the invariant speaks of. -/
theorem stepKeepsInvariant : Obligations.StepKeepsInvariant := by
  unfold Obligations.StepKeepsInvariant
  intro s t hinv hstep
  rcases step_next hstep with ⟨i, rest, c, -, -, hexec⟩ | ⟨i, rest, w, -, -, rfl⟩ | ⟨-, rfl⟩
  · have hinv' : inv (s.withInput rest) = true := by simpa using hinv
    exact exec_keeps_inv hinv' hexec
  · simpa using hinv
  · simpa using hinv

/-- Settles O55: each writer changes the one part it writes, and a command that is no writer its outputs alone. -/
theorem onlyWritersChangeState : Obligations.OnlyWritersChangeState := by
  unfold Obligations.OnlyWritersChangeState
  intro i s t hexec
  rcases exec_next hexec with ⟨regno, value, rfl, hwrite⟩ | ⟨m, address, data, rfl, hwrite⟩ |
    ⟨m, address, bytes, rfl, hcopy⟩ | ⟨-, -, o, rfl⟩
  · obtain ⟨r, -, rfl⟩ := execRfWrite_next hwrite
    exact ⟨fun hno => (nomatch hno), fun m _ => by simp, by simp, by simp⟩
  · rcases execMemWrite_next hwrite with ⟨-, rfl⟩ | ⟨-, rfl⟩
    · exact ⟨fun _ => by simp, fun n hn => by simp [State.setMem_mem_of_some_ne s _ hn], by simp, by simp⟩
    · exact ⟨fun _ => rfl, fun n _ => by simp, rfl, rfl⟩
  · obtain ⟨-, rfl⟩ := execCopyTo_next hcopy
    exact ⟨fun _ => by simp, fun n hn => by simp [State.setMem_mem_of_some_ne s _ hn], by simp, by simp⟩
  · exact ⟨fun _ => rfl, fun n _ => by simp, rfl, rfl⟩

/-- No step changes the configuration: no command does (O55), and the rest of a step only takes an input. -/
theorem step_config {s t : State} (hstep : step s = .next t) : t.config = s.config := by
  rcases step_next hstep with ⟨i, rest, c, -, -, hexec⟩ | ⟨i, rest, w, -, -, rfl⟩ | ⟨-, rfl⟩
  · obtain ⟨-, -, -, hconfig⟩ := onlyWritersChangeState c _ t hexec
    simpa using hconfig
  · rfl
  · rfl

/-- Settles O54: having the configuration of the first state is what every step, and so every run, keeps. -/
theorem configurationNeverChanges : Obligations.ConfigurationNeverChanges := by
  unfold Obligations.ConfigurationNeverChanges
  intro n s t hrun
  exact run_keeps (P := fun u => u.config = s.config) (fun u v hu huv => (step_config huv).trans hu) rfl hrun

/-- Settles O28: the equations of RF.READ and RF.WRITE at register 0, which reads 0 and discards what is written. -/
theorem registerZeroIsHardWired : Obligations.RegisterZeroIsHardWired := by
  unfold Obligations.RegisterZeroIsHardWired
  intro s
  constructor
  · simpa using exec_rfRead 0 s
  · intro v
    simpa using exec_rfWrite 0 v s

/-- Settles O51: no register is set and no byte listed, and an unlisted address reads 0. -/
theorem constructionLeavesZeros : Obligations.ConstructionLeavesZeros := by
  unfold Obligations.ConstructionLeavesZeros
  intro c
  exact ⟨rfl, State.initial_readReg c, fun m x => by simp, rfl, rfl⟩

end Sys2Proof.Proofs
end

section
/-! The two paths to a memory (20_memory.md): when each answers and with what (R60 to R66), and that both put the same
bytes at the same addresses (R30, R37). -/

namespace Sys2Proof.Machine

open Sys2Proof.Safety

/-! ### Which addresses a memory answers -/

/-- R60, with the check as `addressPasses` says it. -/
theorem addrOk_eq_true_iff_passes {c : MemSpec} {address : Word} :
    addrOk c address = true ↔ addressPasses c address.toNat := addrOk_iff

/-- R22 on one memory: both memories meet the same constraints. -/
theorem State.spec_valid_of_meets {s : State} (h : meetsConstraints s.config) (m : MemId) :
    (s.spec m).valid = true := by
  obtain ⟨-, ⟨himemGran, hdmemGran⟩, himem, hdmem⟩ := h
  cases m with
  | imem => exact MemSpec_valid_iff.2 ⟨himemGran, himem⟩
  | dmem => exact MemSpec_valid_iff.2 ⟨hdmemGran, hdmem⟩

/-- R22 (a), R41: an address that one memory lets pass is in the range of no other. -/
theorem not_addressPasses_of_ne {s : State} (h : meetsConstraints s.config) {m n : MemId} (hne : m ≠ n) {a : Nat}
    (hm : addressPasses (s.spec m) a) : ¬ addressPasses (s.spec n) a := by
  obtain ⟨hdisjoint, -⟩ := h
  obtain ⟨hmlow, hmhigh, -⟩ := hm
  rintro ⟨hnlow, hnhigh, -⟩
  cases m <;> cases n
  · exact hne rfl
  · exact hdisjoint a ⟨⟨hmlow, hmhigh⟩, hnlow, hnhigh⟩
  · exact hdisjoint a ⟨⟨hnlow, hnhigh⟩, hmlow, hmhigh⟩
  · exact hne rfl

/-- R22 (b), R60: the range that the host's path checks holds the whole word of an address that passes. -/
theorem addressPasses_word_in_range {s : State} (h : meetsConstraints s.config) {m : MemId} {address : Word}
    (hpass : addressPasses (s.spec m) address.toNat) :
    (s.spec m).base ≤ address.toNat ∧ address.toNat + 4 ≤ (s.spec m).base + (s.spec m).size :=
  addrOk_word_in_range (State.spec_valid_of_meets h m) (addrOk_eq_true_iff_passes.2 hpass)

/-! ### What the commands answer -/

/-- MEM.READ where the address passes (R62). -/
theorem exec_memRead_of_passes {m : MemId} {address : Word} (data : Int) {s : State}
    (h : addressPasses (s.spec m) address.toNat) :
    exec (.memRead m address data) s =
      .next (s.withOutput (.access ((s.mem m).readWord address.toNat) true)) :=
  if_pos (addrOk_eq_true_iff_passes.2 h)

/-- MEM.READ where the address does not pass (R60, R97). -/
theorem exec_memRead_of_not_passes {m : MemId} {address : Word} (data : Int) {s : State}
    (h : ¬ addressPasses (s.spec m) address.toNat) :
    exec (.memRead m address data) s = .next (s.withOutput (.access 0#32 false)) :=
  if_neg (mt addrOk_eq_true_iff_passes.1 h)

/-- MEM.WRITE where the address passes (R63). -/
theorem exec_memWrite_of_passes {m : MemId} {address : Word} (data : Int) {s : State}
    (h : addressPasses (s.spec m) address.toNat) :
    exec (.memWrite m address data) s =
      .next ((s.setMem m ((s.mem m).writeWord address.toNat (trunc32 data))).withOutput (.access 0#32 true)) :=
  if_pos (addrOk_eq_true_iff_passes.2 h)

/-- MEM.WRITE where the address does not pass (R60, R97, D14). -/
theorem exec_memWrite_of_not_passes {m : MemId} {address : Word} (data : Int) {s : State}
    (h : ¬ addressPasses (s.spec m) address.toNat) :
    exec (.memWrite m address data) s = .next (s.withOutput (.access 0#32 false)) :=
  if_neg (mt addrOk_eq_true_iff_passes.1 h)

/-- COPY_TO of a contained range (R65). -/
theorem exec_copyTo_of_contained {m : MemId} {address : Nat} {bytes : List Byte} {s : State}
    (h : (s.spec m).base ≤ address ∧ address + bytes.length ≤ (s.spec m).base + (s.spec m).size) :
    exec (.copyTo m address bytes) s =
      .next ((s.setMem m ((s.mem m).writeBytes address bytes)).withOutput .none) :=
  if_pos (rangeOk_iff.2 h)

/-- COPY_FROM of a contained range (R66). -/
theorem exec_copyFrom_of_contained {m : MemId} {address length : Nat} {s : State}
    (h : (s.spec m).base ≤ address ∧ address + length ≤ (s.spec m).base + (s.spec m).size) :
    exec (.copyFrom m address length) s =
      .next (s.withOutput (.bytes ((s.mem m).readBytes address length))) :=
  if_pos (rangeOk_iff.2 h)

/-! ### The bytes stored, read back -/

/-- A sequence of bytes stored and read back (R65, R66). -/
theorem Memory.readBytes_writeBytes {mem : Memory} (hw : mem.wf = true) (a : Nat) (bs : List Byte) :
    (mem.writeBytes a bs).readBytes a bs.length = bs := by
  refine List.ext_getElem (by simp) fun i _ hi => ?_
  simp [Memory.getElem_readBytes, Memory.readByte_writeBytes hw, hi]

/-- A word stored is read back as its bytes, lowest first (R30). -/
theorem Memory.readBytes_writeWord {mem : Memory} (hw : mem.wf = true) (a : Nat) (w : Word) :
    (mem.writeWord a w).readBytes a 4 = [byteOf w 0, byteOf w 1, byteOf w 2, byteOf w 3] :=
  Memory.readBytes_writeBytes hw a _

/-- Four bytes stored are read back as their little-endian word (R30). -/
theorem Memory.readWord_writeBytes {mem : Memory} (hw : mem.wf = true) (a : Nat) (b0 b1 b2 b3 : Byte) :
    (mem.writeBytes a [b0, b1, b2, b3]).readWord a = littleEndian b0 b1 b2 b3 := by
  simp [Memory.readWord, Memory.readByte_writeBytes hw]

/-- R30: a little-endian word as the number its bytes spell. -/
theorem littleEndian_eq_ofNat (b0 b1 b2 b3 : Byte) :
    littleEndian b0 b1 b2 b3 =
      BitVec.ofNat 32 (b0.toNat + 2 ^ 8 * b1.toNat + 2 ^ 16 * b2.toNat + 2 ^ 24 * b3.toNat) := by
  rw [← littleEndian_toNat, BitVec.ofNat_toNat, BitVec.setWidth_eq]

/-- R7, R30: truncating a datum to a word keeps its low four bytes. -/
theorem byteOf_trunc32 (v : Int) {i : Nat} (hi : i < 4) :
    byteOf (trunc32 v) i = BitVec.ofInt 8 (v / 2 ^ (8 * i)) := by
  rw [byteOf_eq]
  apply BitVec.eq_of_toNat_eq
  simp only [trunc32, BitVec.toNat_ofNat, BitVec.toNat_ofInt]
  interval_cases i <;> omega

end Sys2Proof.Machine
end

section
/-! R38 (c): each command stores some bytes, perhaps none, from some address of a memory on. So a byte after a step
is the one the step's command stored there, or what it was; a run chains the steps. -/

namespace Sys2Proof.Safety

open Sys2Proof.Machine

/-! ### The byte a command stores -/

/-- Only the configuration decides which byte a command stores: the addresses it admits. -/
theorem storedByte_congr {s t : State} (h : t.config = s.config) (m : MemId) (x : Nat) (c : Instr) :
    storedByte t m x c = storedByte s m x c := by
  have hspec : t.spec = s.spec := by unfold State.spec; rw [h]
  cases c with
  | memWrite n address data => simp only [storedByte, hspec]
  | _ => rfl

theorem storedByte_of_storesTo_ne {s : State} {m : MemId} {c : Instr} (h : storesTo c ≠ some m) (x : Nat) :
    storedByte s m x c = none := by
  cases c with
  | memWrite n address data => exact if_neg fun hc => h (congrArg some hc.1)
  | copyTo n address bytes => exact if_neg fun hc => h (congrArg some hc.1)
  | _ => rfl

theorem storedByte_memWrite_of_fails {s : State} {m : MemId} {address : Word} (data : Int) (x : Nat)
    (h : addrOk (s.spec m) address = false) : storedByte s m x (.memWrite m address data) = none := by
  simp [storedByte, h]

/-- A write that passes stores the bytes of its truncated datum, lowest first (R30, R63). -/
theorem storedByte_memWrite_of_passes {s : State} {m : MemId} {address : Word} (data : Int) (x : Nat)
    (h : addrOk (s.spec m) address = true) :
    storedByte s m x (.memWrite m address data) =
      if address.toNat ≤ x then
        [byteOf (trunc32 data) 0, byteOf (trunc32 data) 1, byteOf (trunc32 data) 2,
          byteOf (trunc32 data) 3][x - address.toNat]?
      else none := by
  by_cases hlow : address.toNat ≤ x
  · obtain ⟨d, rfl⟩ := Nat.exists_eq_add_of_le hlow
    by_cases hd : d < 4
    · simp only [storedByte, h, hlow, hd, and_self, if_true, Nat.add_sub_cancel_left, Nat.add_lt_add_iff_left,
        ← byteOf_trunc32 data hd]
      interval_cases d <;> rfl
    · simp [storedByte, hd]
  · simp [storedByte, hlow]

/-- What a command does to a memory: it stores a sequence of bytes, perhaps the empty one, and `storedByte` says
which. -/
theorem exec_mem_eq_writeBytes {c : Instr} {s t : State} (h : exec c s = .next t) (m : MemId) :
    ∃ a bs, t.mem m = (s.mem m).writeBytes a bs ∧
      ∀ x, storedByte s m x c = if a ≤ x then bs[x - a]? else none := by
  by_cases hm : storesTo c = some m
  · rcases exec_next h with ⟨_, _, rfl, -⟩ | ⟨n, address, data, rfl, hwrite⟩ | ⟨n, address, bytes, rfl, hcopy⟩ |
      ⟨-, hnone, -⟩
    · cases hm
    · cases hm
      rcases execMemWrite_next hwrite with ⟨hok, rfl⟩ | ⟨hfail, rfl⟩
      · exact ⟨address.toNat, _, by simp [Memory.writeWord], fun x => storedByte_memWrite_of_passes data x hok⟩
      · exact ⟨0, [], by simp [Memory.writeBytes], fun x => by simp [storedByte_memWrite_of_fails data x hfail]⟩
    · cases hm
      obtain ⟨-, rfl⟩ := execCopyTo_next hcopy
      exact ⟨address, bytes, by simp, fun x => by simp [storedByte]⟩
    · rw [hnone] at hm; cases hm
  · obtain ⟨-, hsame, -⟩ := Proofs.onlyWritersChangeState c s t h
    exact ⟨0, [], hsame m hm, fun x => by simp [storedByte_of_storesTo_ne hm x]⟩

/-- R38 (c) for one command: a byte is the one the command stored there, or what it was. -/
theorem exec_readByte {c : Instr} {s t : State} (h : exec c s = .next t) {m : MemId} (hw : (s.mem m).wf = true)
    (x : Nat) : (t.mem m).readByte x = (storedByte s m x c).getD ((s.mem m).readByte x) := by
  obtain ⟨a, bs, hmem, hstored⟩ := exec_mem_eq_writeBytes h m
  rw [hmem, Memory.readByte_writeBytes hw, hstored]
  split <;> rfl

theorem exec_keeps_wf {c : Instr} {s t : State} (h : exec c s = .next t) {m : MemId} (hw : (s.mem m).wf = true) :
    (t.mem m).wf = true := by
  obtain ⟨a, bs, hmem, -⟩ := exec_mem_eq_writeBytes h m
  exact hmem ▸ Memory.wf_writeBytes hw a bs

/-! ### The byte that a sequence of inputs leaves -/

@[simp] theorem latestByte_nil (s : State) (m : MemId) (x : Nat) (b : Byte) : latestByte s m x [] b = b := rfl

theorem latestByte_command (s : State) (m : MemId) (x : Nat) {i : Input} {c : Instr} (h : decode i = .command c)
    (rest : List Input) (b : Byte) :
    latestByte s m x (i :: rest) b = latestByte s m x rest ((storedByte s m x c).getD b) := by
  simp only [latestByte, h]

theorem latestByte_noCommand (s : State) (m : MemId) (x : Nat) {i : Input} {w : NoCommand}
    (h : decode i = .noCommand w) (rest : List Input) (b : Byte) :
    latestByte s m x (i :: rest) b = latestByte s m x rest b := by
  simp only [latestByte, h]

theorem latestByte_append (s : State) (m : MemId) (x : Nat) (l k : List Input) (b : Byte) :
    latestByte s m x (l ++ k) b = latestByte s m x k (latestByte s m x l b) := by
  induction l generalizing b with
  | nil => rfl
  | cons i rest ih =>
    rw [List.cons_append]
    cases hd : decode i with
    | command c => simp only [latestByte_command s m x hd, ih]
    | noCommand w => simp only [latestByte_noCommand s m x hd, ih]

theorem latestByte_congr {s t : State} (h : t.config = s.config) (m : MemId) (x : Nat) (l : List Input) (b : Byte) :
    latestByte t m x l b = latestByte s m x l b := by
  induction l generalizing b with
  | nil => rfl
  | cons i rest ih =>
    cases hd : decode i with
    | command c => simp only [latestByte_command _ m x hd, ih, storedByte_congr h]
    | noCommand w => simp only [latestByte_noCommand _ m x hd, ih]

/-! ### Steps -/

/-- A step takes the first pending input, if there is one. -/
theorem step_input {s t : State} (h : step s = .next t) : t.input = s.input.drop 1 := by
  rcases step_next h with ⟨i, rest, c, hinput, -, hexec⟩ | ⟨i, rest, w, hinput, -, rfl⟩ | ⟨hinput, rfl⟩
  · obtain ⟨-, -, hkept, -⟩ := Proofs.onlyWritersChangeState c _ t hexec
    simpa [hinput] using hkept
  · simp [hinput]
  · simp [hinput]

theorem step_keeps_wf {s t : State} (h : step s = .next t) {m : MemId} (hw : (s.mem m).wf = true) :
    (t.mem m).wf = true := by
  rcases step_next h with ⟨i, rest, c, -, -, hexec⟩ | ⟨i, rest, w, -, -, rfl⟩ | ⟨-, rfl⟩
  · exact exec_keeps_wf hexec (by simpa using hw)
  · simpa using hw
  · simpa using hw

/-- R38 (c) for one step: the input it takes decides the byte. -/
theorem step_readByte {s t : State} (h : step s = .next t) {m : MemId} (hw : (s.mem m).wf = true) (x : Nat) :
    (t.mem m).readByte x = latestByte s m x (s.input.take 1) ((s.mem m).readByte x) := by
  rcases step_next h with ⟨i, rest, c, hinput, hdecode, hexec⟩ | ⟨i, rest, w, hinput, hdecode, rfl⟩ |
    ⟨hinput, rfl⟩
  · have hbyte := exec_readByte hexec (m := m) (by simpa using hw) x
    simpa [hinput, latestByte_command s m x hdecode, storedByte_congr (State.withInput_config s rest)] using hbyte
  · simp [hinput, latestByte_noCommand s m x hdecode]
  · simp [hinput]

end Sys2Proof.Safety
end

section
/-! The memories (20_memory.md): a byte is that of the latest store, on both paths, and only in its own range. -/

namespace Sys2Proof.Proofs

open Sys2Proof.Machine Sys2Proof.Safety

/-- R38 (c), with the canonical form asked of the one memory read: the first step leaves the byte that the first
input decides, and the run that follows starts from it. -/
theorem run_readByte {n : Nat} {s t : State} {m : MemId} (hw : (s.mem m).wf = true) (hrun : run n s = .next t)
    (x : Nat) : (t.mem m).readByte x = latestByte s m x (s.input.take n) ((s.mem m).readByte x) := by
  induction n generalizing s with
  | zero => cases hrun; simp
  | succ n ih =>
    obtain ⟨u, hstep, hrest⟩ := run_succ hrun
    calc (t.mem m).readByte x
        = latestByte u m x (u.input.take n) ((u.mem m).readByte x) := ih (step_keeps_wf hstep hw) hrest
      _ = latestByte s m x ((s.input.drop 1).take n)
            (latestByte s m x (s.input.take 1) ((s.mem m).readByte x)) := by
          rw [latestByte_congr (step_config hstep), step_input hstep, step_readByte hstep hw]
      _ = latestByte s m x (s.input.take (n + 1)) ((s.mem m).readByte x) := by
          rw [← latestByte_append, ← List.take_add, Nat.add_comm]

/-- Settles O58, by induction on the number of steps. -/
theorem memoryHoldsLatestStore : Obligations.MemoryHoldsLatestStore := by
  unfold Obligations.MemoryHoldsLatestStore
  intro n s t m x himem hdmem hrun
  have hw : (s.mem m).wf = true := by
    cases m with
    | imem => exact himem
    | dmem => exact hdmem
  exact run_readByte hw hrun x

/-- Settles O47: R22 puts the whole word in the range that the host's path checks, and what the one path has stored
the other reads as the same four bytes. -/
theorem bothPathsSeeTheSameBytes : Obligations.BothPathsSeeTheSameBytes := by
  unfold Obligations.BothPathsSeeTheSameBytes
  intro m address b0 b1 b2 b3 data other s hmeets hw hpass
  have hrange := addressPasses_word_in_range hmeets hpass
  refine ⟨⟨_, exec_copyTo_of_contained hrange, ?_⟩, ⟨_, exec_memWrite_of_passes data hpass, ?_⟩⟩
  · rw [exec_memRead_of_passes other (by simpa using hpass), ← littleEndian_eq_ofNat,
      ← Memory.readWord_writeBytes hw address.toNat]
    simp
  · rw [exec_copyFrom_of_contained (by simpa using hrange), State.withOutput_mem, State.setMem_mem_same,
      Memory.readBytes_writeWord hw]
    simp [byteOf_trunc32]

/-- Settles O56: no address lies in both ranges, so the check of the other memory fails (D14: a failed write stores
nothing). -/
theorem eachInstanceAnswersOnlyItsRange : Obligations.EachInstanceAnswersOnlyItsRange := by
  unfold Obligations.EachInstanceAnswersOnlyItsRange
  intro m n address data s hmeets hne hpass
  have hfails := not_addressPasses_of_ne hmeets hne hpass
  exact ⟨exec_memRead_of_not_passes data hfails, exec_memWrite_of_not_passes data hfails⟩

end Sys2Proof.Proofs
end

section
/-! The code tables (30_encoding.md, R45 to R51): what the decoder reads from a selector that no operation has, and
that decoding and encoding undo each other, the Adder's default apart (R50). -/

namespace Sys2Proof

/-! ### The selectors that the tables assign -/

/-- R45: the assigned ALU selectors are 1 to 21. -/
theorem aluAssigned_eq_true_iff {fn : Nat} : aluAssigned fn = true ↔ 1 ≤ fn ∧ fn ≤ 21 := by
  simp [aluAssigned]

/-- R48: the assigned Memory selectors are 0 and 1. -/
theorem memAssigned_eq_true_iff {fn : Nat} : memAssigned fn = true ↔ fn ≤ 1 := by
  simp [memAssigned]

/-- R46: selector 0 and every selector from 22 on is ALU.NONE and keeps its number. -/
theorem decodeAlu_of_unassigned {fn : Nat} (h : aluAssigned fn = false) (a b : Word) :
    decodeAlu fn a b = .aluNone fn a b := by
  rw [← Bool.not_eq_true, aluAssigned_eq_true_iff] at h
  cases fn with
  | zero => rfl
  | succ n =>
    obtain ⟨k, rfl⟩ : ∃ k, n = k + 21 := ⟨n - 21, by omega⟩
    rfl

/-- R48: with `valid` on, every selector from 2 on is MEM.BADFN and keeps its number. -/
theorem decodeAccess_of_unassigned {fn : Nat} (h : memAssigned fn = false) (m : MemId) (address : Word) (data : Int) :
    decodeAccess m true address data fn = .memBadfn m address data fn := by
  rw [← Bool.not_eq_true, memAssigned_eq_true_iff] at h
  obtain ⟨k, rfl⟩ : ∃ k, fn = k + 2 := ⟨fn - 2, by omega⟩
  rfl

/-! ### What the decoder answers is a command of the same port values -/

/-- R45, R46: whatever its selector, an ALU input spells a well-formed command, and that command is encoded with the
same selector. -/
theorem decodeAlu_spec (fn : Nat) (a b : Word) :
    wellFormed (decodeAlu fn a b) = true ∧ encode (decodeAlu fn a b) = .alufn fn a b := by
  cases h : aluAssigned fn with
  | true =>
    obtain ⟨hlow, hhigh⟩ := aluAssigned_eq_true_iff.1 h
    interval_cases fn <;> exact ⟨rfl, rfl⟩
  | false =>
    rw [decodeAlu_of_unassigned h]
    exact ⟨by simp [wellFormed, h], rfl⟩

/-- R48: whatever `valid` and the selector, an access spells a well-formed command, which is encoded with the same
`valid` and selector. -/
theorem decodeAccess_spec (m : MemId) (valid : Bool) (address : Word) (data : Int) (fn : Nat) :
    wellFormed (decodeAccess m valid address data fn) = true ∧
      encode (decodeAccess m valid address data fn) = .memacc m valid address data fn := by
  cases valid with
  | false => exact ⟨rfl, rfl⟩
  | true =>
    cases h : memAssigned fn with
    | true =>
      have hle := memAssigned_eq_true_iff.1 h
      interval_cases fn <;> exact ⟨rfl, rfl⟩
    | false =>
      rw [decodeAccess_of_unassigned h]
      exact ⟨by simp [wellFormed, h], rfl⟩

/-! ### The round trips -/

/-- Only ALU.NONE and MEM.BADFN take their selector from the command, and there `wellFormed` says that it is
unassigned; every other command has its own row of the tables. -/
theorem decode_encode {i : Instr} (h : wellFormed i = true) : decode (encode i) = .command i := by
  cases i with
  | aluNone fn a b => exact congrArg Decoded.command (decodeAlu_of_unassigned (by simpa [wellFormed] using h) a b)
  | memBadfn m address data fn =>
    exact congrArg Decoded.command (decodeAccess_of_unassigned (by simpa [wellFormed] using h) m address data)
  | _ => rfl

/-- The two inputs that spell no command are a disabled write and a cycle mark; the Adder is the one format with an
operand left to a default (R50). -/
theorem decode_eq_command {x : Input} {i : Instr} (h : decode x = .command i) :
    wellFormed i = true ∧ encode i = x.explicit := by
  cases x with
  | alufn fn a b => cases h; exact decodeAlu_spec fn a b
  | memacc m valid address data fn => cases h; exact decodeAccess_spec m valid address data fn
  | rfwr wen regno wdata =>
    cases wen with
    | false => exact nomatch h
    | true => cases h; exact ⟨rfl, rfl⟩
  | cycle => exact nomatch h
  | adder | rfrd | copyTo | copyFrom | memDump | rfDump => cases h; exact ⟨rfl, rfl⟩

end Sys2Proof
end

section
/-! The encoding (30_encoding.md): port values and commands spell each other. -/

namespace Sys2Proof.Proofs

/-- Settles O4, by cases on the command: `decode_encode`. -/
theorem decodeInvertsEncode : Obligations.DecodeInvertsEncode := by
  unfold Obligations.DecodeInvertsEncode
  exact fun _ => decode_encode

/-- Settles O5, by cases on the input's format: `decode_eq_command`. -/
theorem encodeInvertsDecode : Obligations.EncodeInvertsDecode := by
  unfold Obligations.EncodeInvertsDecode
  exact fun _ _ => decode_eq_command

/-- Settles O3: each input is the encoding of the command it stands for, but for the Adder's, which leaves its second
operand to the default. -/
theorem sampleCommandsDecode : Obligations.SampleCommandsDecode := by
  unfold Obligations.SampleCommandsDecode
  exact ⟨decode_encode (i := .add _ _) rfl, decode_encode (i := .sra _ _) rfl, decode_encode (i := .mul _ _) rfl,
    decode_encode (i := .vadd _ _) rfl, decode_encode (i := .aluNone _ _ _) rfl, rfl,
    decode_encode (i := .rfRead _) rfl, decode_encode (i := .rfWrite _ _) rfl,
    decode_encode (i := .memRead _ _ _) rfl, decode_encode (i := .memWrite _ _ _) rfl,
    decode_encode (i := .memBadfn _ _ _ _) rfl, decode_encode (i := .memNop _ _ _ _) rfl,
    decode_encode (i := .copyFrom _ _ _) rfl⟩

end Sys2Proof.Proofs
end

section
/-! The register numbers in range, what a cell reads as, and what RF.DUMP lists (R14, R15, R56 to R58). -/

namespace Sys2Proof.Machine

/-- A register number in range is that of a register (R56, R57). -/
theorem exists_register_of_in_range {regno : Int} (hlow : 0 ≤ regno) (hhigh : regno < 32) :
    ∃ r : Fin 32, regno = (r.val : Int) := by
  lift regno to ℕ using hlow
  exact ⟨⟨regno, by omega⟩, rfl⟩

/-- R14, R56: register 0 reads 0, every other register its cell. -/
theorem State.readReg_eq (s : State) (r : Fin 32) :
    s.readReg r = if r.val = 0 then 0#32 else s.regs[r] := by
  simp only [State.readReg, Fin.ext_iff, Fin.val_zero]

/-- R57: a register other than 0 reads as what was written to it. -/
theorem State.readReg_writeReg_same (s : State) {r : Fin 32} (hr : r ≠ 0) (v : Word) :
    (s.writeReg r v).readReg r = v := by
  rw [State.readReg_writeReg, if_pos ⟨rfl, hr⟩]

/-- RF.DUMP (R58). -/
@[simp] theorem exec_rfDump (s : State) :
    exec .rfDump s = .next (s.withOutput (.regDump ((List.finRange 32).map (regEntry s)))) := rfl

/-- R58: the dump lists each register at its own number. -/
theorem getElem?_map_regEntry (s : State) (r : Fin 32) :
    ((List.finRange 32).map (regEntry s))[r.val]? = some (regEntry s r) := by
  simp

@[simp] theorem regNames_length : regNames.length = 32 := rfl

/-- R15: the table names each of the 32 registers, so `regName` never falls back to its default. -/
theorem getElem?_regNames (r : Fin 32) : regNames[r.val]? = some (regName r) := by
  have hr : r.val < regNames.length := by simp
  rw [regName, List.getD_eq_getElem _ _ hr, List.getElem?_eq_getElem hr]

end Sys2Proof.Machine
end

section
/-! The Register File (40_regfile.md): RF.READ, RF.WRITE and RF.DUMP on the registers in range. -/

namespace Sys2Proof.Proofs

open Sys2Proof.Machine

/-- Settles O29: the equation of RF.READ, with the word read told by its cell. -/
theorem registerReadReturnsStoredWord : Obligations.RegisterReadReturnsStoredWord := by
  unfold Obligations.RegisterReadReturnsStoredWord
  intro r s
  rw [exec_rfRead, State.readReg_eq]

/-- Settles O30: the number names a register, and what each register reads after the write is
`State.readReg_writeReg`; no other part of the state is written. -/
theorem registerWriteStoresTruncatedValue : Obligations.RegisterWriteStoresTruncatedValue := by
  unfold Obligations.RegisterWriteStoresTruncatedValue
  intro regno value s hlow hhigh
  obtain ⟨r, rfl⟩ := exists_register_of_in_range hlow hhigh
  refine ⟨_, exec_rfWrite r value s, fun q => ?_, by simp, by simp, by simp, by simp, rfl⟩
  simp only [State.withOutput_readReg, State.readReg_writeReg, trunc32, Int.natCast_inj, ne_eq, Fin.ext_iff,
    Fin.val_zero]

/-- Settles O31: a register from 1 on is not register 0, so it reads as what was written. -/
theorem registerWriteThenReadReturnsValue : Obligations.RegisterWriteThenReadReturnsValue := by
  unfold Obligations.RegisterWriteThenReadReturnsValue
  intro regno value s hlow hhigh
  obtain ⟨r, rfl⟩ := exists_register_of_in_range (by omega) hhigh
  have hr : r ≠ 0 := by rintro rfl; simp at hlow
  refine ⟨_, exec_rfWrite r value s, ?_⟩
  rw [exec_rfRead, State.withOutput_readReg, State.readReg_writeReg_same s hr, trunc32]

/-- Settles O33: entry `r` of the dump is `regEntry s r`, and its name the one the table has at `r`. -/
theorem registerDumpListsAllRegisters : Obligations.RegisterDumpListsAllRegisters := by
  unfold Obligations.RegisterDumpListsAllRegisters
  intro s
  exact ⟨_, exec_rfDump s, by simp,
    fun r => ⟨_, getElem?_map_regEntry s r, rfl, rfl, getElem?_regNames r⟩⟩

end Sys2Proof.Proofs
end

section
/-! What the checked accesses answer beside a read and a write of a word, an access from its ports, and what a store
leaves unchanged (R48, R59 to R64). -/

namespace Sys2Proof.Machine

open Sys2Proof.Safety

/-! ### Words in numbers -/

/-- R30: the word read is the number that its four bytes spell. -/
theorem Memory.readWord_toNat (mem : Memory) (a : Nat) : (mem.readWord a).toNat = wordNat mem a :=
  littleEndian_toNat _ _ _ _

theorem Memory.readWord_eq_ofNat (mem : Memory) (a : Nat) : mem.readWord a = BitVec.ofNat 32 (wordNat mem a) :=
  littleEndian_eq_ofNat _ _ _ _

/-! ### What the commands answer -/

/-- MEM.NOP (R61). -/
@[simp] theorem exec_memNop (m : MemId) (address : Word) (data : Int) (fn : Nat) (s : State) :
    exec (.memNop m address data fn) s = .next (s.withOutput (.access 0#32 true)) := rfl

/-- MEM.BADFN (R64). -/
@[simp] theorem exec_memBadfn (m : MemId) (address : Word) (data : Int) (fn : Nat) (s : State) :
    exec (.memBadfn m address data fn) s = .next (s.withOutput (.access 0#32 false)) := rfl

/-- R60: a valid access whose address does not pass fails, whatever its selector. -/
theorem exec_decodeAccess_of_not_passes {m : MemId} {address : Word} (data : Int) (fn : Nat) {s : State}
    (h : ¬ addressPasses (s.spec m) address.toNat) :
    exec (decodeAccess m true address data fn) s = .next (s.withOutput (.access 0#32 false)) :=
  match fn with
  | 0 => exec_memRead_of_not_passes data h
  | 1 => exec_memWrite_of_not_passes data h
  | _ + 2 => rfl

/-- R48, R64: a selector from 2 on is neither read nor write. -/
theorem decodeAccess_of_two_le {fn : Nat} (h : 2 ≤ fn) (m : MemId) (address : Word) (data : Int) :
    decodeAccess m true address data fn = .memBadfn m address data fn :=
  decodeAccess_of_unassigned (Bool.eq_false_iff.2 (mt memAssigned_eq_true_iff.1 (by omega))) m address data

/-- R47, R48: a step carries an access out as `valid` and the selector spell it. -/
theorem step_of_memacc {s : State} {m : MemId} {valid : Bool} {address : Word} {data : Int} {fn : Nat}
    {rest : List Input} (h : s.input = .memacc m valid address data fn :: rest) :
    step s = exec (decodeAccess m valid address data fn) (s.withInput rest) := by
  rw [step_of_input h, decode]

/-! ### What a store leaves unchanged -/

/-- R21, R63, R65: after a store to one memory the other one, the registers, the configuration and the inputs still to
come are as before. -/
theorem State.setMem_withOutput_frame (s : State) (m : MemId) (v : Memory) (o : Output) :
    (∀ n, n ≠ m → ((s.setMem m v).withOutput o).mem n = s.mem n) ∧
      ((s.setMem m v).withOutput o).config = s.config ∧ ((s.setMem m v).withOutput o).regs = s.regs ∧
      ((s.setMem m v).withOutput o).input = s.input ∧ ((s.setMem m v).withOutput o).output = o :=
  ⟨fun n hn => by simp [State.setMem_mem_other s v hn], by simp, by simp, by simp, rfl⟩

/-- A word written is read back, whatever the data of the read (R62, R63, D14). -/
theorem exec_memRead_after_writeWord {m : MemId} {address : Word} (w : Word) (o : Output) (data : Int) {s : State}
    (hw : (s.mem m).wf = true) (hpass : addressPasses (s.spec m) address.toNat) :
    let t := (s.setMem m ((s.mem m).writeWord address.toNat w)).withOutput o
    exec (.memRead m address data) t = .next (t.withOutput (.access w true)) := by
  intro t
  have hword : (t.mem m).readWord address.toNat = w := by simp [t, Memory.readWord_writeWord hw]
  rw [exec_memRead_of_passes data (by simpa [t] using hpass), hword]

end Sys2Proof.Machine
end

section
/-! The dump of a memory (R67): its rows, and what is left of them where zero runs are skipped. -/

namespace Sys2Proof.Machine

/-- MEM.DUMP (R67). -/
@[simp] theorem exec_memDump (m : MemId) (skip : Bool) (s : State) :
    exec (.memDump m skip) s = .next (s.withOutput (.memDump (dumpLines skip (memRows (s.spec m) (s.mem m))))) := rfl

/-! ### The rows -/

@[simp] theorem memRows_length (c : MemSpec) (mem : Memory) : (memRows c mem).length = c.size / 4 := by
  simp [memRows]

theorem getElem?_memRows {c : MemSpec} (mem : Memory) {i : Nat} (h : i < c.size / 4) :
    (memRows c mem)[i]? = some (memRow mem (c.base + 4 * i)) := by
  simp [memRows, h]

/-- R22: the range is not empty and ends with a whole word, whose row is the last. -/
theorem getLast?_memRows {c : MemSpec} (hc : c.valid = true) (mem : Memory) :
    (memRows c mem).getLast? = some (memRow mem (c.base + c.size - 4)) := by
  obtain ⟨-, -, hsize, hpos, -⟩ := MemSpec_valid_iff.1 hc
  have hlast : c.base + 4 * (c.size / 4 - 1) = c.base + c.size - 4 := by omega
  rw [List.getLast?_eq_getElem?, memRows_length, getElem?_memRows mem (by omega), hlast]

/-! ### The rows printed -/

/-- The row that a line prints, if it is no ellipsis. -/
def DumpLine.row? : DumpLine → Option MemRow
  | .row r => some r
  | .ellipsis => none

@[simp] theorem DumpLine.row?_row (r : MemRow) : (DumpLine.row r).row? = some r := rfl

theorem filterMap_row?_map_row (rows : List MemRow) : (rows.map .row).filterMap DumpLine.row? = rows := by
  rw [List.filterMap_map]
  exact List.filterMap_some

/-- The ways a zero run is printed, whatever the two free values are: whole, as an ellipsis, or as its first row and
an ellipsis. -/
theorem printZeroRun_cases (run : List MemRow) (meetsLast : Bool) :
    printZeroRun run meetsLast = run.map .row ∨ printZeroRun run meetsLast = [.ellipsis] ∨
      ∃ first more, run = first :: more ∧ printZeroRun run meetsLast = [.row first, .ellipsis] := by
  unfold printZeroRun
  split
  · exact .inl rfl
  · split
    · exact .inr (.inl rfl)
    · exact .inr (.inr ⟨_, _, rfl, rfl⟩)
    · exact .inl rfl

theorem printZeroRun_rows_sublist (run : List MemRow) (meetsLast : Bool) :
    ((printZeroRun run meetsLast).filterMap DumpLine.row?).Sublist run := by
  rcases printZeroRun_cases run meetsLast with h | h | ⟨first, more, rfl, h⟩ <;> rw [h]
  · rw [filterMap_row?_map_row]
  · exact List.nil_sublist run
  · exact (List.nil_sublist more).cons_cons first

/-- Printing leaves rows out and puts none out of order; `run` holds rows read before `rows`. -/
theorem skipRuns_rows_sublist (run rows : List MemRow) :
    ((skipRuns run rows).filterMap DumpLine.row?).Sublist (run ++ rows) := by
  fun_induction skipRuns run rows with
  | case1 run => simpa using printZeroRun_rows_sublist run false
  | case2 run last => simpa using printZeroRun_rows_sublist run (last.word == 0#32)
  | case3 run r next rest hzero ih => simpa using ih
  | case4 run r next rest hzero ih =>
    simpa using (printZeroRun_rows_sublist run false).append (ih.cons_cons r)

/-- Only a zero row can join a run, and only rows of a run are left out. -/
theorem row_mem_skipRuns {run rows : List MemRow} {r : MemRow} (hr : r ∈ rows) (hword : r.word ≠ 0#32) :
    DumpLine.row r ∈ skipRuns run rows := by
  fun_induction skipRuns run rows with
  | case1 run => exact nomatch hr
  | case2 run last =>
    obtain rfl := List.mem_singleton.1 hr
    simp
  | case3 run r' next rest hzero ih =>
    rcases List.mem_cons.1 hr with rfl | hrest
    · exact absurd hzero hword
    · exact ih hrest
  | case4 run r' next rest hzero ih =>
    rcases List.mem_cons.1 hr with rfl | hrest
    · simp
    · simp [ih hrest]

/-- R67: the last row is printed, and last, even where it is part of a zero run. -/
theorem getLast?_skipRuns (run rows : List MemRow) {last : MemRow} (h : rows.getLast? = some last) :
    (skipRuns run rows).getLast? = some (.row last) := by
  fun_induction skipRuns run rows with
  | case1 run => cases h
  | case2 run r => cases h; simp
  | case3 run r next rest hzero ih => exact ih (by simpa using h)
  | case4 run r next rest hzero ih =>
    rw [List.getLast?_append, List.getLast?_cons, ih (by simpa using h)]
    rfl

end Sys2Proof.Machine
end

section
/-! The memory operations (41_memory_ops.md): the checked accesses, the copies and the dump. -/

namespace Sys2Proof.Proofs

open Sys2Proof.Machine Sys2Proof.Safety

/-- Settles O34: the check is R60's on numbers, and R22's multiples of 4 leave room for the word's other bytes. -/
theorem addressCheckCoversTheWord : Obligations.AddressCheckCoversTheWord := by
  unfold Obligations.AddressCheckCoversTheWord
  intro s m address
  refine ⟨addrOk_eq_true_iff_passes, fun hmeets hpass i hi => ?_⟩
  obtain ⟨hlow, hhigh⟩ := addressPasses_word_in_range hmeets hpass
  omega

/-- Settles O37: `Memory.readByte_writeWord` on the word's own addresses and outside them, and the frame of a store. -/
theorem writeStoresLittleEndianWord : Obligations.WriteStoresLittleEndianWord := by
  unfold Obligations.WriteStoresLittleEndianWord
  intro m address data s hw hpass
  refine ⟨_, exec_memWrite_of_passes data hpass, fun i hi => ?_, fun x hx => ?_,
    State.setMem_withOutput_frame s m _ _⟩
  · simp [Memory.readByte_writeWord hw, hi, byteOf_eq, trunc32]
  · have houtside : ¬ (address.toNat ≤ x ∧ x < address.toNat + 4) := by omega
    simp [Memory.readByte_writeWord hw, houtside]

/-- Settles O38: the write changes no configuration, so the read passes too, and it finds the word written. -/
theorem writeThenReadReturnsWord : Obligations.WriteThenReadReturnsWord := by
  unfold Obligations.WriteThenReadReturnsWord
  intro m address data other s hw hpass
  exact ⟨_, exec_memWrite_of_passes data hpass, exec_memRead_after_writeWord (trunc32 data) _ other hw hpass⟩

/-- Settles O41, clause by clause in the order of R59; taking the input changes no part that the access looks at. -/
theorem accessDecidesInOrder : Obligations.AccessDecidesInOrder := by
  unfold Obligations.AccessDecidesInOrder
  intro m valid address data fn s rest hinput
  rw [step_of_memacc hinput]
  refine ⟨?disabled, ?failing, fun hvalid hpass => ?passing⟩
  case disabled =>
    rintro rfl
    exact exec_memNop m address data fn _
  case failing =>
    rintro rfl hfails
    exact exec_decodeAccess_of_not_passes data fn (by simpa using hfails)
  case passing =>
    subst hvalid
    have hpass' : addressPasses ((s.withInput rest).spec m) address.toNat := by simpa using hpass
    refine ⟨?read, ?write, fun hfn => ?other⟩
    case read =>
      rintro rfl
      rw [decodeAccess, exec_memRead_of_passes data hpass', State.withInput_mem, Memory.readWord_eq_ofNat]
    case write =>
      rintro rfl
      refine ⟨_, exec_memWrite_of_passes data hpass', rfl, by simp, fun hw => ?_⟩
      simp [← Memory.readWord_toNat, Memory.readWord_writeWord hw, trunc32]
    case other =>
      rw [decodeAccess_of_two_le hfn, exec_memBadfn]

/-- Settles O43: what each address reads as after the bytes are stored, and the frame of a store. -/
theorem copyToStoresBytes : Obligations.CopyToStoresBytes := by
  unfold Obligations.CopyToStoresBytes
  intro m address bytes s hw hlow hhigh
  refine ⟨_, exec_copyTo_of_contained ⟨hlow, hhigh⟩, fun i hi => ?_, fun x hx => ?_,
    State.setMem_withOutput_frame s m _ _⟩
  · simp [Memory.readByte_writeBytes hw, hi]
  · simpa using Memory.readByte_writeBytes_outside bytes hx

/-- Settles O44: the buffer is `Memory.readBytes`, byte by byte. -/
theorem copyFromReturnsBytes : Obligations.CopyFromReturnsBytes := by
  unfold Obligations.CopyFromReturnsBytes
  intro m address length s hlow hhigh
  refine ⟨_, exec_copyFrom_of_contained ⟨hlow, hhigh⟩, by simp, fun i hi => ?_⟩
  rw [List.getElem?_eq_getElem (by simpa using hi), Memory.getElem_readBytes]

/-- Settles O46: the range is contained for the second copy as for the first, and `Memory.readBytes_writeBytes`. -/
theorem copyFromReturnsWhatCopyToStored : Obligations.CopyFromReturnsWhatCopyToStored := by
  unfold Obligations.CopyFromReturnsWhatCopyToStored
  intro m address bytes s hw hlow hhigh
  refine ⟨_, exec_copyTo_of_contained ⟨hlow, hhigh⟩, ?_⟩
  rw [exec_copyFrom_of_contained (by simpa using And.intro hlow hhigh), State.withOutput_mem, State.setMem_mem_same,
    Memory.readBytes_writeBytes hw]

/-- Settles O48: without skipping each row is a line, and row `i` is that of the word at `base + 4 * i`. -/
theorem memoryDumpListsEveryWord : Obligations.MemoryDumpListsEveryWord := by
  unfold Obligations.MemoryDumpListsEveryWord
  intro m s
  refine ⟨_, exec_memDump m false s, by simp [dumpLines], fun i hi => ?_⟩
  exact ⟨memRow (s.mem m) ((s.spec m).base + 4 * i), by simp [dumpLines, getElem?_memRows _ hi], rfl, rfl, rfl, rfl,
    rfl, Memory.readWord_toNat _ _⟩

/-- Settles O49: each clause is a fact of `skipRuns` from an empty run on, for every way a zero run may be printed;
R22 makes the row of the range's last word the last row. -/
theorem skippingDumpKeepsLastAndNonzeroRows : Obligations.SkippingDumpKeepsLastAndNonzeroRows := by
  unfold Obligations.SkippingDumpKeepsLastAndNonzeroRows
  intro m s hmeets
  refine ⟨_, exec_memDump m true s, ?order, fun r hr hword => ?nonzero, ?last⟩
  case order => exact skipRuns_rows_sublist [] (memRows (s.spec m) (s.mem m))
  case nonzero => exact row_mem_skipRuns hr hword
  case last => exact getLast?_skipRuns [] _ (getLast?_memRows (State.spec_valid_of_meets hmeets m) (s.mem m))

/-- Settles O35: MEM.NOP looks at no port, and `valid` false spells MEM.NOP. -/
theorem disabledAccessSucceeds : Obligations.DisabledAccessSucceeds := by
  unfold Obligations.DisabledAccessSucceeds
  refine ⟨exec_memNop, fun m address data fn s rest hinput => ?_⟩
  rw [step_of_memacc hinput, decodeAccess, exec_memNop]

/-- Settles O36: the equation of MEM.READ, with the word told by its bytes. -/
theorem readReturnsLittleEndianWord : Obligations.ReadReturnsLittleEndianWord := by
  unfold Obligations.ReadReturnsLittleEndianWord
  intro m address data s hpass
  rw [exec_memRead_of_passes data hpass, Memory.readWord_eq_ofNat]

/-- Settles O39: the equations of MEM.READ and MEM.WRITE where the address does not pass. -/
theorem failedAccessChangesNothing : Obligations.FailedAccessChangesNothing := by
  unfold Obligations.FailedAccessChangesNothing
  intro m address data s hfails
  exact ⟨exec_memRead_of_not_passes data hfails, exec_memWrite_of_not_passes data hfails⟩

/-- Settles O40: MEM.BADFN checks nothing, and a selector from 2 on spells MEM.BADFN. -/
theorem unrecognisedFunctionFails : Obligations.UnrecognisedFunctionFails := by
  unfold Obligations.UnrecognisedFunctionFails
  refine ⟨exec_memBadfn, fun m address data fn s rest hfn hinput => ?_⟩
  rw [step_of_memacc hinput, decodeAccess_of_two_le hfn, exec_memBadfn]

end Sys2Proof.Proofs
end

section
/-! The Adder (42_adder.md, R68): its result in numbers, and its step where the caller leaves the second operand out. -/

namespace Sys2Proof.Machine

/-- ADDER, with the sum in numbers (R68). -/
theorem exec_adder_eq_ofNat (a b : Word) (s : State) :
    exec (.adder a b) s = .next (s.withOutput (.word (BitVec.ofNat 32 (a.toNat + b.toNat)))) := by
  rw [exec_adder, BitVec.add_def]

/-- R50: an Adder input without a second operand issues ADDER with the default in its place. -/
theorem step_of_adder_none {s : State} {a : Word} {rest : List Input} (h : s.input = .adder a none :: rest) :
    step s = exec (.adder a adderDefaultB) (s.withInput rest) :=
  step_of_input h

/-- R68: the default is 4. -/
@[simp] theorem adderDefaultB_toNat : adderDefaultB.toNat = 4 := rfl

end Sys2Proof.Machine
end

section
/-! The Adder (42_adder.md): the function of ADD, with a second operand that may be left out. -/

namespace Sys2Proof.Proofs

open Sys2Proof.Machine

/-- Settles O17: ADDER and ADD answer with the same word, and the step without a second operand is ADDER's with 4. -/
theorem adderWrapsWithDefaultFour : Obligations.AdderWrapsWithDefaultFour := by
  unfold Obligations.AdderWrapsWithDefaultFour
  refine ⟨fun a b s => ⟨exec_adder_eq_ofNat a b s, ?same⟩, fun a s rest hinput => ?default⟩
  case same => rw [exec_adder, exec_add]
  case default => rw [step_of_adder_none hinput, exec_adder_eq_ofNat, adderDefaultB_toNat]

end Sys2Proof.Proofs
end

section
/-! The scalar ALU (43_alu_scalar.md) in numbers: the word operations of its equations, told by the unsigned or the
signed values of their operands, and the step of an ALU input. -/

namespace Sys2Proof.Machine

/-- R75, R76, R82: the result word of a comparison that a proposition decides. -/
theorem truthWord_decide (p : Prop) [Decidable p] : truthWord (decide p) = if p then 1#32 else 0#32 := by
  simp only [truthWord, decide_eq_true_eq]

/-- R71: the difference of two words is that of their unsigned values. -/
theorem sub_eq_ofInt (a b : Word) : a - b = BitVec.ofInt 32 ((a.toNat : Int) - b.toNat) := by
  have hsum : BitVec.ofInt 32 ((a.toNat : Int) - b.toNat) + b = a := by
    calc BitVec.ofInt 32 ((a.toNat : Int) - b.toNat) + b
        = BitVec.ofInt 32 ((a.toNat : Int) - b.toNat) + BitVec.ofInt 32 b.toNat := by simp
      _ = BitVec.ofInt 32 a.toNat := by rw [← BitVec.ofInt_add, sub_add_cancel]
      _ = a := by simp
  exact sub_eq_of_eq_add hsum.symm

/-- R77: a shift to the left multiplies by a power of two. -/
theorem shiftLeft_eq_ofNat (a : Word) (n : Nat) : a <<< n = BitVec.ofNat 32 (a.toNat * 2 ^ n) := by
  rw [← Nat.shiftLeft_eq]
  exact BitVec.eq_of_toNat_eq (by rw [BitVec.toNat_shiftLeft, BitVec.toNat_ofNat])

/-- R79: a logical shift to the right divides by a power of two. -/
theorem ushiftRight_eq_ofNat (a : Word) (n : Nat) : a >>> n = BitVec.ofNat 32 (a.toNat / 2 ^ n) := by
  rw [← Nat.shiftRight_eq_div_pow, ← BitVec.toNat_ushiftRight, BitVec.ofNat_toNat, BitVec.setWidth_eq]

/-- R78, first form: an arithmetic shift to the right divides the signed value, rounding toward minus infinity. -/
theorem sshiftRight_eq_ofInt_fdiv (a : Word) (n : Nat) :
    a.sshiftRight n = BitVec.ofInt 32 (Int.fdiv a.toInt (2 ^ n)) := by
  have hdiv : a.toInt >>> n = Int.fdiv a.toInt (2 ^ n) := by
    rw [Int.shiftRight_eq_div_pow, Int.fdiv_eq_ediv_of_nonneg _ (by positivity), Nat.cast_pow, Nat.cast_ofNat]
  rw [BitVec.sshiftRight_eq, hdiv]

/-- R78, second form: bit `i` comes from `n` places above, and past the top from the sign bit. -/
theorem getLsbD_sshiftRight_eq (a : Word) (n : Nat) {i : Nat} (hi : i < 32) :
    (a.sshiftRight n).getLsbD i = if i + n ≤ 31 then a.getLsbD (i + n) else a.getLsbD 31 := by
  have hin : i + n < 32 ↔ i + n ≤ 31 := Nat.lt_succ_iff
  have hmsb : a.msb = a.getLsbD 31 := BitVec.msb_eq_getLsbD_last a
  simp only [BitVec.getLsbD_sshiftRight, hin, hmsb, Nat.add_comm n i, Nat.not_le.2 hi, decide_false, Bool.not_false,
    Bool.true_and]

/-- R44: a step carries out the ALU command that the selector spells. -/
theorem step_of_alufn {s : State} {fn : Nat} {a b : Word} {rest : List Input} (h : s.input = .alufn fn a b :: rest) :
    step s = exec (decodeAlu fn a b) (s.withInput rest) :=
  step_of_input h

/-- R46: the unassigned selectors are 0 and those from 22 on. -/
theorem aluAssigned_eq_false_iff {fn : Nat} : aluAssigned fn = false ↔ fn = 0 ∨ 22 ≤ fn := by
  rw [← Bool.not_eq_true, aluAssigned_eq_true_iff]
  omega

end Sys2Proof.Machine
end

section
/-! The scalar ALU commands (43_alu_scalar.md): each answers with the word that its rule names and changes nothing
else. -/

namespace Sys2Proof.Proofs

open Sys2Proof.Machine

/-- Settles O12: SRA's word, once as the floor division and once bit by bit. -/
theorem arithmeticShiftKeepsSign : Obligations.ArithmeticShiftKeepsSign := by
  unfold Obligations.ArithmeticShiftKeepsSign
  intro a b s
  rw [← shiftAmount_eq b]
  exact ⟨_, exec_sra a b s, sshiftRight_eq_ofInt_fdiv a _, fun _ hi => getLsbD_sshiftRight_eq a _ hi⟩

/-- Settles O7: both readings of an operand stand for the same word, and the sum modulo 2^32 is that of the words. -/
theorem addWraps : Obligations.AddWraps := by
  unfold Obligations.AddWraps
  intro a b s
  have hsigned : BitVec.ofInt 32 (a.toInt + b.toInt) = a + b := by
    rw [BitVec.ofInt_add, BitVec.ofInt_toInt, BitVec.ofInt_toInt]
  rw [hsigned, ← BitVec.add_def]
  exact ⟨exec_add a b s, exec_add a b s⟩

/-- Settles O8: SUB's word is the difference of the unsigned values. -/
theorem subtractWraps : Obligations.SubtractWraps := by
  unfold Obligations.SubtractWraps
  intro a b s
  rw [exec_sub, sub_eq_ofInt]

/-- Settles O9: the bits of AND's, OR's and XOR's words, place by place. -/
theorem bitwiseLogicIsPerBit : Obligations.BitwiseLogicIsPerBit := by
  unfold Obligations.BitwiseLogicIsPerBit
  intro a b s
  exact ⟨⟨_, exec_and a b s, fun _ _ => BitVec.getLsbD_and⟩, ⟨_, exec_or a b s, fun _ _ => BitVec.getLsbD_or⟩,
    ⟨_, exec_xor a b s, fun _ _ => BitVec.getLsbD_xor⟩⟩

/-- Settles O10: the order on words is decided on their signed values (SLT) and on their unsigned ones (SLTU). -/
theorem lessThanComparesValues : Obligations.LessThanComparesValues := by
  unfold Obligations.LessThanComparesValues
  intro a b s
  constructor
  · rw [exec_slt, BitVec.slt_eq_decide, truthWord_decide]
  · rw [exec_sltu, BitVec.ult_eq_decide, truthWord_decide]

/-- Settles O11: SLL's word is a product, SRL's a quotient, by a power of two. -/
theorem logicalShiftsScaleByPowerOfTwo : Obligations.LogicalShiftsScaleByPowerOfTwo := by
  unfold Obligations.LogicalShiftsScaleByPowerOfTwo
  intro a b s
  constructor
  · rw [exec_sll, shiftAmount_eq, shiftLeft_eq_ofNat]
  · rw [exec_srl, shiftAmount_eq, ushiftRight_eq_ofNat]

/-- Settles O13: the equations of COPY1 and COPY2. -/
theorem passThroughCopiesOperand : Obligations.PassThroughCopiesOperand := by
  unfold Obligations.PassThroughCopiesOperand
  exact fun a b s => ⟨exec_copy1 a b s, exec_copy2 a b s⟩

/-- Settles O14: SEQ's word is the outcome of the test whether the operands are the same word. -/
theorem equalityTestComparesAllBits : Obligations.EqualityTestComparesAllBits := by
  unfold Obligations.EqualityTestComparesAllBits
  intro a b s
  rw [exec_seq, beq_eq_decide, truthWord_decide]
  exact ⟨fun heq => by rw [if_pos heq], fun hne => by rw [if_neg hne]⟩

/-- Settles O15: both readings of an operand stand for the same word, and the product modulo 2^32 is that of the
words. -/
theorem multiplyKeepsLowHalf : Obligations.MultiplyKeepsLowHalf := by
  unfold Obligations.MultiplyKeepsLowHalf
  intro a b s
  have hunsigned : BitVec.ofNat 32 (a.toNat * b.toNat) = a * b :=
    BitVec.eq_of_toNat_eq (by rw [BitVec.toNat_ofNat, BitVec.toNat_mul])
  have hsigned : BitVec.ofInt 32 (a.toInt * b.toInt) = a * b := by
    rw [BitVec.ofInt_mul, BitVec.ofInt_toInt, BitVec.ofInt_toInt]
  rw [hunsigned, hsigned]
  exact ⟨exec_mul a b s, exec_mul a b s⟩

/-- Settles O16: ALU.NONE's word is 0 whatever its selector, and an unassigned selector spells ALU.NONE. -/
theorem unassignedSelectorYieldsZero : Obligations.UnassignedSelectorYieldsZero := by
  unfold Obligations.UnassignedSelectorYieldsZero
  refine ⟨exec_aluNone, fun fn a b s rest hfn hinput => ?_⟩
  rw [step_of_alufn hinput, decodeAlu_of_unassigned (aluAssigned_eq_false_iff.2 hfn), exec_aluNone]

end Sys2Proof.Proofs
end

section
/-! The vector ALU (44_alu_vector.md) in numbers: the lanes of a lanewise result, what a lane is clamped and scaled to,
and the result word that a command's equation gives. -/

namespace Sys2Proof.Machine

open Sys2Proof.Safety

/-! ### Packed words -/

/-- R85, D10: a packed word has no bits above its three lanes. -/
theorem mklanes_toNat_lt (l2 l1 l0 : Lane) : (mklanes l2 l1 l0).toNat < 2 ^ 30 := by
  have h2 := l2.isLt
  have h1 := l1.isLt
  have h0 := l0.isLt
  rw [mklanes_toNat]
  omega

theorem lanewise_toNat_lt (f : Lane → Lane → Lane) (a b : Word) : (lanewise f a b).toNat < 2 ^ 30 :=
  mklanes_toNat_lt _ _ _

/-- R89: every lane of a word that holds one lane three times is that lane. -/
theorem lane_mklanes_self (l : Lane) {k : Nat} (hk : k < 3) : lane (mklanes l l l) k = l := by
  obtain ⟨h2, h1, h0⟩ := lane_mklanes l l l
  interval_cases k
  · exact h0
  · exact h1
  · exact h2

/-- R86: a lane of a lanewise result, as a number. -/
theorem laneNat_lanewise (f : Lane → Lane → Lane) (a b : Word) {k : Nat} (hk : k < 3) :
    laneNat (lanewise f a b) k = (f (lane a k) (lane b k)).toNat := by
  rw [← lane_toNat, lane_lanewise f a b hk]

/-- Lanes of the same number are the same lane. -/
theorem lane_eq_of_laneNat_eq {a b : Word} {k : Nat} (h : laneNat a k = laneNat b k) : lane a k = lane b k :=
  BitVec.eq_of_toNat_eq (by rwa [lane_toNat, lane_toNat])

/-- R86: lane `k` of a lanewise result follows from lane `k` of the operands. -/
theorem laneNat_lanewise_congr (f : Lane → Lane → Lane) {a a' b b' : Word} {k : Nat} (hk : k < 3)
    (ha : laneNat a k = laneNat a' k) (hb : laneNat b k = laneNat b' k) :
    laneNat (lanewise f a b) k = laneNat (lanewise f a' b') k := by
  rw [laneNat_lanewise f a b hk, laneNat_lanewise f a' b' hk, lane_eq_of_laneNat_eq ha, lane_eq_of_laneNat_eq hb]

/-! ### Operations on one lane -/

/-- R92: the difference of two lanes, modulo 1024. -/
theorem lane_toNat_sub (x y : Lane) : ((x - y).toNat : Int) = ((x.toNat : Int) - y.toNat) % 1024 := by
  have hy := y.isLt
  rw [BitVec.toNat_sub]
  omega

/-- R88: a lane is clamped to 255. -/
theorem saturate_toNat (v : Lane) : (saturate v).toNat = min v.toNat 255 := by
  unfold saturate
  split
  next hover =>
    have hlt : 255 < v.toNat := hover
    rw [Nat.min_eq_right hlt.le]
    rfl
  next hfits =>
    have hle : v.toNat ≤ 255 := Nat.le_of_not_lt hfits
    rw [Nat.min_eq_left hle, BitVec.toNat_setWidth, Nat.mod_eq_of_lt (by omega)]

/-- R94 (a): a byte that was put in a lane is not clamped. -/
theorem saturate_byteLane (c : Byte) : saturate (byteLane c) = c := by
  have hc := c.isLt
  apply BitVec.eq_of_toNat_eq
  rw [saturate_toNat, byteLane_toNat]
  omega

/-- R93: 20 bits hold the product of two lanes. -/
theorem laneProduct_toNat (x y : Lane) : (laneProduct x y).toNat = x.toNat * y.toNat := by
  have hprod : x.toNat * y.toNat < 2 ^ 10 * 2 ^ 10 := Nat.mul_lt_mul'' x.isLt y.isLt
  rw [laneProduct, BitVec.toNat_mul, BitVec.toNat_setWidth_of_le (by decide), BitVec.toNat_setWidth_of_le (by decide)]
  exact Nat.mod_eq_of_lt hprod

/-- R93: the two forms of the rounding agree, since adding 128 carries into the quotient by 256 exactly where the
remainder is 128 or more. -/
theorem laneScale_toNat (x y : Lane) : (laneScale x y).toNat = (x.toNat * y.toNat + 128) / 256 % 1024 := by
  have hlt : (laneProduct x y).toNat < 2 ^ 20 := (laneProduct x y).isLt
  have hquot : (laneProduct x y >>> 8).toNat = (laneProduct x y).toNat / 256 := by
    rw [BitVec.toNat_ushiftRight, Nat.shiftRight_eq_div_pow]
  have hrem : 0x80#8 ≤ (laneProduct x y).extractLsb' 0 8 ↔ 128 ≤ (laneProduct x y).toNat % 256 := by
    simp [BitVec.le_def]
  rw [← laneProduct_toNat]
  simp only [laneScale, hrem]
  split
  next hup =>
    rw [BitVec.toNat_setWidth, BitVec.toNat_add, hquot, BitVec.toNat_ofNat]
    omega
  next hdown =>
    rw [BitVec.toNat_setWidth, hquot]
    omega

/-! ### What the commands answer -/

/-- R90: VADDI adds, lane by lane, the word that holds the immediate in every lane. -/
theorem exec_vaddi_eq_lanewise (a b : Word) (s : State) :
    exec (.vaddi a b) s = .next (s.withOutput (.word (lanewise (· + ·) a
      (mklanes (byteLane (lowByte b)) (byteLane (lowByte b)) (byteLane (lowByte b)))))) := by
  have hlane := @lane_mklanes_self (byteLane (lowByte b))
  rw [exec_vaddi, lanewise, hlane (by decide), hlane (by decide), hlane (by decide)]

/-- The result word of a command that answers with a word. -/
theorem resultWord_of_exec {i : Instr} {s : State} {w : Word} (h : exec i s = .next (s.withOutput (.word w))) :
    resultWord i s = some w := by
  rw [resultWord, h]
  rfl

/-- R86: two commands that apply the same operation lane by lane agree on a lane where their operands agree. -/
theorem lanewise_results_agree {f : Lane → Lane → Lane} {i i' : Instr} {a a' b b' : Word} {s s' : State} {k : Nat}
    (h : exec i s = .next (s.withOutput (.word (lanewise f a b))))
    (h' : exec i' s' = .next (s'.withOutput (.word (lanewise f a' b')))) (hk : k < 3)
    (ha : laneNat a k = laneNat a' k) (hb : laneNat b k = laneNat b' k) :
    ∃ w w', resultWord i s = some w ∧ resultWord i' s' = some w' ∧ laneNat w k = laneNat w' k :=
  ⟨_, _, resultWord_of_exec h, resultWord_of_exec h', laneNat_lanewise_congr f hk ha hb⟩

end Sys2Proof.Machine
end

section
/-! The vector ALU commands (44_alu_vector.md): what becomes of the channels and of the lanes, and that lanes do not
interfere. -/

namespace Sys2Proof.Proofs

open Sys2Proof.Machine Sys2Proof.Safety

/-- Settles O18: a packed word's value, with a channel byte in each lane. -/
theorem unpackSpreadsChannels : Obligations.UnpackSpreadsChannels := by
  unfold Obligations.UnpackSpreadsChannels
  intro a b s
  refine ⟨_, exec_vunpack a b s, ?_⟩
  simp only [mklanes_toNat, byteLane_toNat, channel_toNat]
  ring

/-- Settles O19: a raw word's value, with a clamped lane in each channel and the low byte of `b` above them. -/
theorem packSaturatesChannels : Obligations.PackSaturatesChannels := by
  unfold Obligations.PackSaturatesChannels
  intro a b s
  refine ⟨_, exec_vpack a b s, ?_⟩
  simp only [mkraw_toNat, saturate_toNat, lane_toNat, lowByte_toNat]
  ring

/-- Settles O20: a packed word's value, with the same byte in each lane. -/
theorem broadcastReplicatesByte : Obligations.BroadcastReplicatesByte := by
  unfold Obligations.BroadcastReplicatesByte
  intro a b s
  refine ⟨_, exec_vbcast a b s, ?_⟩
  simp only [mklanes_toNat, byteLane_toNat, lowByte_toNat]
  ring

/-- Settles O21: VADD and VSUB are lanewise, and the arithmetic of a lane is modulo 1024. -/
theorem lanesAddAndSubtractModulo : Obligations.LanesAddAndSubtractModulo := by
  unfold Obligations.LanesAddAndSubtractModulo
  intro a b s
  refine ⟨⟨_, exec_vadd a b s, lanewise_toNat_lt _ a b, fun k hk => ?add⟩,
    ⟨_, exec_vsub a b s, lanewise_toNat_lt _ a b, fun k hk => ?sub⟩⟩
  case add => rw [laneNat_lanewise _ a b hk, BitVec.toNat_add, lane_toNat, lane_toNat]
  case sub => rw [laneNat_lanewise _ a b hk, lane_toNat_sub, lane_toNat, lane_toNat]

/-- Settles O22: VADDI is the lanewise sum with the immediate's byte in every lane. -/
theorem immediateAddsToEveryLane : Obligations.ImmediateAddsToEveryLane := by
  unfold Obligations.ImmediateAddsToEveryLane
  intro a b s
  refine ⟨_, exec_vaddi_eq_lanewise a b s, lanewise_toNat_lt _ a _, fun k hk => ?_⟩
  rw [laneNat_lanewise _ a _ hk, lane_mklanes_self _ hk, BitVec.toNat_add, lane_toNat, byteLane_toNat, lowByte_toNat]

/-- Settles O23: VMUL is lanewise, and the two forms of its rounding agree. -/
theorem lanesMultiplyRoundingHalfUp : Obligations.LanesMultiplyRoundingHalfUp := by
  unfold Obligations.LanesMultiplyRoundingHalfUp
  intro a b s
  refine ⟨_, exec_vmul a b s, lanewise_toNat_lt _ a b, fun k hk => ?_⟩
  rw [laneNat_lanewise _ a b hk, laneScale_toNat, lane_toNat, lane_toNat]

/-- Settles O24: each of the four commands is lanewise; VADDI's second operand is the same word in both runs. -/
theorem lanesDoNotInterfere : Obligations.LanesDoNotInterfere := by
  unfold Obligations.LanesDoNotInterfere
  intro k a a' b b' s s' hk ha
  refine ⟨?vaddi, fun hb => ⟨?vadd, ?vsub, ?vmul⟩⟩
  case vaddi =>
    exact lanewise_results_agree (exec_vaddi_eq_lanewise a b s) (exec_vaddi_eq_lanewise a' b s') hk ha rfl
  case vadd => exact lanewise_results_agree (exec_vadd a b s) (exec_vadd a' b' s') hk ha hb
  case vsub => exact lanewise_results_agree (exec_vsub a b s) (exec_vsub a' b' s') hk ha hb
  case vmul => exact lanewise_results_agree (exec_vmul a b s) (exec_vmul a' b' s') hk ha hb

/-- Settles O25: the lanes of the unpacked word are the channel bytes, which VPACK does not clamp. -/
theorem packAfterUnpackKeepsChannels : Obligations.PackAfterUnpackKeepsChannels := by
  unfold Obligations.PackAfterUnpackKeepsChannels
  intro w x tag s s'
  refine ⟨_, _, resultWord_of_exec (exec_vunpack w x s), resultWord_of_exec (exec_vpack _ tag s'), ?_⟩
  obtain ⟨h2, h1, h0⟩ := lane_mklanes (byteLane (channel w 2)) (byteLane (channel w 1)) (byteLane (channel w 0))
  rw [h2, h1, h0, saturate_byteLane, saturate_byteLane, saturate_byteLane, mkraw_toNat, lowByte_toNat,
    channel_toNat, channel_toNat, channel_toNat]
  unfold channelNat
  omega

/-- Settles O26: the result words of the three commands' equations, on the pixel of the source's example. -/
theorem endToEndPixel : Obligations.EndToEndPixel := by
  unfold Obligations.EndToEndPixel
  intro x s
  rw [resultWord_of_exec (exec_vunpack _ x s), resultWord_of_exec (exec_vaddi _ _ s),
    resultWord_of_exec (exec_vpack _ _ s)]
  decide

end Sys2Proof.Proofs
end

section
/-! Where a command or an input has no ordinary answer (60_exceptions.md): the failures raised (R96, R98), the inputs
that issue no command (R49, R55, R101), and the flag that reports an access failure (R97). -/

namespace Sys2Proof.Machine

open Sys2Proof.Safety

/-! ### Raised failures -/

/-- RF.READ of a number that names no register (R96). -/
theorem exec_rfRead_of_out_of_range {regno : Int} (h : regno < 0 ∨ 32 ≤ regno) (s : State) :
    exec (.rfRead regno) s = .fault (.regOutOfRange regno) := by
  simp only [exec, execRfRead, regIndex_eq_none.2 h, raiseFailure]

/-- RF.WRITE of a number that names no register, whatever the value (R96). -/
theorem exec_rfWrite_of_out_of_range {regno : Int} (h : regno < 0 ∨ 32 ≤ regno) (value : Int) (s : State) :
    exec (.rfWrite regno value) s = .fault (.regOutOfRange regno) := by
  simp only [exec, execRfWrite, regIndex_eq_none.2 h, raiseFailure]

/-- R65, D15: the range check fails where the range begins too low or ends too high. -/
theorem not_rangeOk_iff {c : MemSpec} {address n : Nat} :
    ¬ rangeOk c address n = true ↔ address < c.base ∨ c.base + c.size < address + n := by
  rw [rangeOk_iff, not_and_or, Nat.not_le, Nat.not_le]

/-- COPY_TO of a range that is not contained (R98). -/
theorem exec_copyTo_of_not_contained {m : MemId} {address : Nat} {bytes : List Byte} {s : State}
    (h : address < (s.spec m).base ∨ (s.spec m).base + (s.spec m).size < address + bytes.length) :
    exec (.copyTo m address bytes) s = .fault (.rangeError address bytes.length) :=
  if_neg (not_rangeOk_iff.2 h)

/-- COPY_FROM of a range that is not contained (R98). -/
theorem exec_copyFrom_of_not_contained {m : MemId} {address length : Nat} {s : State}
    (h : address < (s.spec m).base ∨ (s.spec m).base + (s.spec m).size < address + length) :
    exec (.copyFrom m address length) s = .fault (.rangeError address length) :=
  if_neg (not_rangeOk_iff.2 h)

/-- R95: where the catalogue has a failure for a command, the command raises it. Four commands have one. -/
theorem exec_of_raises_some {i : Instr} {s : State} {f : Fault} (h : raises s i = some f) : exec i s = .fault f := by
  cases i with
  | rfRead regno =>
    obtain ⟨hout, ⟨⟩⟩ := Option.ite_none_right_eq_some.1 h
    exact exec_rfRead_of_out_of_range hout s
  | rfWrite regno value =>
    obtain ⟨hout, ⟨⟩⟩ := Option.ite_none_right_eq_some.1 h
    exact exec_rfWrite_of_out_of_range hout value s
  | copyTo m address bytes =>
    obtain ⟨hout, ⟨⟩⟩ := Option.ite_none_right_eq_some.1 h
    exact exec_copyTo_of_not_contained hout
  | copyFrom m address length =>
    obtain ⟨hout, ⟨⟩⟩ := Option.ite_none_right_eq_some.1 h
    exact exec_copyFrom_of_not_contained hout
  | _ => exact nomatch h

/-- R100: where the catalogue has no failure for a command, it answers. The four commands that can raise find their
operands in range there, and a checked access answers whether its address passes or not (R97). -/
theorem exec_of_raises_none {i : Instr} {s : State} (h : raises s i = none) : ∃ t, exec i s = .next t := by
  cases hpure : isPure i with
  | true =>
    obtain ⟨w, hw⟩ := Proofs.aluAndAdderArePure i hpure
    exact ⟨_, hw s⟩
  | false =>
    cases i with
    | rfRead regno =>
      obtain ⟨hlow, hhigh⟩ : 0 ≤ regno ∧ regno < 32 := by simpa [raises] using h
      obtain ⟨r, rfl⟩ := exists_register_of_in_range hlow hhigh
      exact ⟨_, exec_rfRead r s⟩
    | rfWrite regno value =>
      obtain ⟨hlow, hhigh⟩ : 0 ≤ regno ∧ regno < 32 := by simpa [raises] using h
      obtain ⟨r, rfl⟩ := exists_register_of_in_range hlow hhigh
      exact ⟨_, exec_rfWrite r value s⟩
    | memRead m address data =>
      by_cases hpass : addressPasses (s.spec m) address.toNat
      · exact ⟨_, exec_memRead_of_passes data hpass⟩
      · exact ⟨_, exec_memRead_of_not_passes data hpass⟩
    | memWrite m address data =>
      by_cases hpass : addressPasses (s.spec m) address.toNat
      · exact ⟨_, exec_memWrite_of_passes data hpass⟩
      · exact ⟨_, exec_memWrite_of_not_passes data hpass⟩
    | copyTo m address bytes => exact ⟨_, exec_copyTo_of_contained (by simpa [raises] using h)⟩
    | copyFrom m address length => exact ⟨_, exec_copyFrom_of_contained (by simpa [raises] using h)⟩
    | memNop m address data fn => exact ⟨_, exec_memNop m address data fn s⟩
    | memBadfn m address data fn => exact ⟨_, exec_memBadfn m address data fn s⟩
    | memDump m skip => exact ⟨_, exec_memDump m skip s⟩
    | rfDump => exact ⟨_, exec_rfDump s⟩
    | _ => exact nomatch hpure

/-! ### No command, and access failures -/

/-- R49, R55, R101: a step that takes an input which spells no command. -/
theorem step_of_noCommand {s : State} {x : Input} {rest : List Input} {why : NoCommand} (hinput : s.input = x :: rest)
    (hdecode : decode x = .noCommand why) : step s = .next ((s.withInput rest).withOutput .none) := by
  rw [step_of_input hinput, hdecode, idle_eq]

/-- R97: an access is safe exactly where its flag reports success. -/
@[simp] theorem safeOutcome_access (s : State) (w : Word) (ok : Bool) :
    safeOutcome (.next (s.withOutput (.access w ok))) = ok := rfl

end Sys2Proof.Machine
end

section
/-! Exceptions (60_exceptions.md): what stops a command, what an access reports, and what a step without a command
does. -/

namespace Sys2Proof.Proofs

open Sys2Proof.Machine Sys2Proof.Safety

/-- Settles O57: `exec_of_raises_some` where the catalogue has a failure, `exec_of_raises_none` where it has none. -/
theorem commandsStopExactlyWhereCatalogued : Obligations.CommandsStopExactlyWhereCatalogued := by
  unfold Obligations.CommandsStopExactlyWhereCatalogued
  exact fun i s => ⟨fun f => exec_of_raises_some, exec_of_raises_none⟩

/-- Settles O2: nothing is pending, or the input taken spells no command. -/
theorem noCommandChangesNothing : Obligations.NoCommandChangesNothing := by
  unfold Obligations.NoCommandChangesNothing
  exact ⟨fun s => step_of_nothing, fun s regno wdata rest hinput => step_of_noCommand hinput rfl,
    fun s rest hinput => step_of_noCommand hinput rfl⟩

/-- Settles O32: the number names no register, so neither command gets past its range check. -/
theorem registerNumberOutOfRangeRaises : Obligations.RegisterNumberOutOfRangeRaises := by
  unfold Obligations.RegisterNumberOutOfRangeRaises
  exact fun regno value s hout => ⟨exec_rfRead_of_out_of_range hout s, exec_rfWrite_of_out_of_range hout value s⟩

/-- Settles O42: a read and a write report what the address check says, the other two accesses always the same. -/
theorem accessIsSafeExactlyWhereAddressPasses : Obligations.AccessIsSafeExactlyWhereAddressPasses := by
  unfold Obligations.AccessIsSafeExactlyWhereAddressPasses
  intro m address data fn s
  refine ⟨?read, ?write, by rw [exec_memNop, safeOutcome_access], by rw [exec_memBadfn, safeOutcome_access]⟩
  case read =>
    by_cases hpass : addressPasses (s.spec m) address.toNat
    · simp [exec_memRead_of_passes data hpass, hpass]
    · simp [exec_memRead_of_not_passes data hpass, hpass]
  case write =>
    by_cases hpass : addressPasses (s.spec m) address.toNat
    · simp [exec_memWrite_of_passes data hpass, hpass]
    · simp [exec_memWrite_of_not_passes data hpass, hpass]

/-- Settles O45: the range check of both copies fails, on whichever side the range leaves the memory. -/
theorem uncontainedRangeRaises : Obligations.UncontainedRangeRaises := by
  unfold Obligations.UncontainedRangeRaises
  rintro m address _ bytes s rfl hout
  exact ⟨exec_copyTo_of_not_contained hout, exec_copyFrom_of_not_contained hout⟩

end Sys2Proof.Proofs
end

section
/-! Reset and hazards (70_reset_and_hazards.md), the parts used below: R22's check on numbers, what a disciplined
sequence of inputs rules out (R111), and what steps without a register write leave (R16). -/

namespace Sys2Proof.Machine

open Sys2Proof.Safety

/-! ### The check of a configuration -/

/-- R22 (a): for valid instances, the check on the ends is the absence of a common address. Of two ranges that
overlap, the higher base lies in both, since neither range is empty. -/
theorem MemSpec_disjoint_iff {c d : MemSpec} (hc : c.valid = true) (hd : d.valid = true) :
    c.disjoint d = true ↔
      ∀ a, ¬ ((c.base ≤ a ∧ a < c.base + c.size) ∧ (d.base ≤ a ∧ a < d.base + d.size)) := by
  obtain ⟨-, -, -, hcpos, -⟩ := MemSpec_valid_iff.1 hc
  obtain ⟨-, -, -, hdpos, -⟩ := MemSpec_valid_iff.1 hd
  simp only [MemSpec.disjoint, Bool.or_eq_true, decide_eq_true_eq]
  constructor
  · intro hends a
    omega
  · intro hno
    have hbase := hno (max c.base d.base)
    omega

/-- R22: what construction checks, said of addresses. -/
theorem Config_valid_iff_meetsConstraints {c : Config} : c.valid = true ↔ meetsConstraints c := by
  simp only [Config.valid, Bool.and_eq_true]
  constructor
  · rintro ⟨⟨himem, hdmem⟩, hdisjoint⟩
    obtain ⟨himemGran, himemRange⟩ := MemSpec_valid_iff.1 himem
    obtain ⟨hdmemGran, hdmemRange⟩ := MemSpec_valid_iff.1 hdmem
    exact ⟨(MemSpec_disjoint_iff himem hdmem).1 hdisjoint, ⟨himemGran, hdmemGran⟩, himemRange, hdmemRange⟩
  · intro hmeets
    have himem : c.imem.valid = true := State.spec_valid_of_meets (s := State.initial c) hmeets .imem
    have hdmem : c.dmem.valid = true := State.spec_valid_of_meets (s := State.initial c) hmeets .dmem
    obtain ⟨hno, -⟩ := hmeets
    exact ⟨⟨himem, hdmem⟩, (MemSpec_disjoint_iff himem hdmem).2 hno⟩

/-! ### Steps that write no register -/

/-- What a register reads as is in its cell alone. -/
theorem State.readReg_congr {s t : State} (h : t.regs = s.regs) (r : Fin 32) : t.readReg r = s.readReg r := by
  simp only [State.readReg, h]

/-- The one input that spells a writer of the Register File is RFWR with the write enable 1 (R16, R49). -/
theorem writesRegister_eq_false_of_decode {x : Input} {c : Instr} (hdecode : decode x = .command c)
    (hx : ∀ regno value, x ≠ .rfwr true regno value) : writesRegister c = false := by
  cases c with
  | rfWrite regno value =>
    obtain ⟨-, hencode⟩ := decode_eq_command hdecode
    cases x with
    | rfwr wen =>
      cases hencode
      exact absurd rfl (hx regno value)
    | _ => exact nomatch hencode
  | _ => rfl

/-- R16: a step that takes no register write leaves the registers. -/
theorem step_regs {s t : State} (h : step s = .next t)
    (hno : ∀ regno value, .rfwr true regno value ∉ s.input.take 1) : t.regs = s.regs := by
  rcases step_next h with ⟨x, rest, c, hinput, hdecode, hexec⟩ | ⟨-, -, -, -, -, rfl⟩ | ⟨-, rfl⟩
  · have hwrites : writesRegister c = false :=
      writesRegister_eq_false_of_decode hdecode fun regno value hx => hno regno value (by simp [hinput, hx])
    obtain ⟨hregs, -⟩ := Proofs.onlyWritersChangeState c _ t hexec
    simpa using hregs hwrites
  · rfl
  · rfl

/-- R16: a run that takes no register write leaves the registers. -/
theorem run_regs {n : Nat} {s t : State} (h : run n s = .next t)
    (hno : ∀ regno value, .rfwr true regno value ∉ s.input.take n) : t.regs = s.regs := by
  induction n generalizing s with
  | zero => cases h; rfl
  | succ n ih =>
    obtain ⟨u, hstep, hrest⟩ := run_succ h
    have htake : s.input.take (n + 1) = s.input.take 1 ++ u.input.take n := by
      rw [step_input hstep, ← List.take_add, Nat.add_comm]
    simp only [htake, List.mem_append, not_or] at hno
    have hfirst : u.regs = s.regs := step_regs hstep fun regno value => (hno regno value).1
    exact (ih hrest fun regno value => (hno regno value).2).trans hfirst

/-- A run takes as many inputs as it has steps, or all there are. -/
theorem run_input {n : Nat} {s t : State} (h : run n s = .next t) : t.input = s.input.drop n := by
  induction n generalizing s with
  | zero => cases h; rfl
  | succ n ih =>
    obtain ⟨u, hstep, hrest⟩ := run_succ h
    rw [ih hrest, step_input hstep, List.drop_drop, Nat.add_comm]

/-- A run of just the steps that take the inputs before `k`. -/
theorem run_input_append {l k : List Input} {s t : State} (hinput : s.input = l ++ k)
    (h : run l.length s = .next t) : t.input = k := by
  rw [run_input h, hinput, List.drop_left]

end Sys2Proof.Machine

namespace Sys2Proof.Safety

/-! ### The duties of a cycle -/

/-- What the duties ask of the inputs after the first: a cycle mark starts them anew, and without one a cycle that
has had its RF.WRITE still has had it. -/
theorem cycleOk_cons {wrote busy : Bool} {x : Input} {rest : List Input} (h : cycleOk wrote busy (x :: rest) = true) :
    (x = .cycle ∧ cycleOk false false rest = true) ∨
      ∃ wrote' busy', (wrote = true → wrote' = true) ∧ cycleOk wrote' busy' rest = true := by
  cases x with
  | cycle => exact .inl ⟨rfl, h⟩
  | rfrd => exact .inr ⟨wrote, true, id, (Bool.and_eq_true_iff.1 h).2⟩
  | rfwr wen =>
    cases wen with
    | true => exact .inr ⟨true, true, fun _ => rfl, (Bool.and_eq_true_iff.1 h).2⟩
    | false => exact .inr ⟨wrote, busy, id, h⟩
  | alufn | adder | memacc => exact .inr ⟨wrote, true, id, h⟩
  | copyTo | copyFrom | memDump | rfDump => exact .inr ⟨wrote, busy, id, (Bool.and_eq_true_iff.1 h).2⟩

/-- The duties hold of what is left after any number of inputs, from some point of a cycle. -/
theorem cycleOk_append {l k : List Input} {wrote busy : Bool} (h : cycleOk wrote busy (l ++ k) = true) :
    ∃ wrote' busy', cycleOk wrote' busy' k = true := by
  induction l generalizing wrote busy with
  | nil => exact ⟨wrote, busy, h⟩
  | cons x l ih =>
    rcases cycleOk_cons h with ⟨-, hrest⟩ | ⟨_, _, -, hrest⟩
    · exact ih hrest
    · exact ih hrest

/-- R111 (b): after the cycle's RF.WRITE, only the next mark lets an RF.READ come. -/
theorem cycle_mem_of_read_after_write {l rest : List Input} {regno : Int} {busy : Bool}
    (h : cycleOk true busy (l ++ .rfrd regno :: rest) = true) : .cycle ∈ l := by
  induction l generalizing busy with
  | nil => exact nomatch h
  | cons x l ih =>
    rcases cycleOk_cons h with ⟨rfl, -⟩ | ⟨wrote', busy', hwrote, hrest⟩
    · exact List.mem_cons_self
    · rw [hwrote rfl] at hrest
      exact List.mem_cons_of_mem x (ih hrest)

/-- R111 (b): no register write comes before a read of the same cycle. -/
theorem write_notMem_before_read {l rest : List Input} {regno : Int} {wrote busy : Bool}
    (h : cycleOk wrote busy (l ++ .rfrd regno :: rest) = true) (hcycle : .cycle ∉ l) (r value : Int) :
    .rfwr true r value ∉ l := by
  intro hwrite
  obtain ⟨l₁, l₂, rfl⟩ := List.append_of_mem hwrite
  rw [List.append_assoc] at h
  obtain ⟨wrote', busy', hfromWrite⟩ := cycleOk_append h
  have hafter : cycleOk true true (l₂ ++ .rfrd regno :: rest) = true := (Bool.and_eq_true_iff.1 hfromWrite).2
  have hmark : .cycle ∈ l₂ := cycle_mem_of_read_after_write hafter
  exact hcycle (by simp [hmark])

end Sys2Proof.Safety
end

section
/-! Reset and hazards (70_reset_and_hazards.md): construction and the configuration, and what a read of a cycle sees. -/

namespace Sys2Proof.Proofs

open Sys2Proof.Machine Sys2Proof.Safety

/-- Settles O59: with the duties kept, no register write lies between the cycle's begin and the read, so the registers
that the read sees are still those of the begin. The hypothesis that `before` ends at a cycle's begin is not used: the
duties rule a write out between the read and any earlier point of its cycle. -/
theorem readsOfACycleSeeItsStart : Obligations.ReadsOfACycleSeeItsStart := by
  unfold Obligations.ReadsOfACycleSeeItsStart
  intro s s0 t before within rest r hinput hdisciplined _ hcycle hbefore hwithin
  rw [List.append_assoc] at hinput
  rw [disciplined, hinput] at hdisciplined
  obtain ⟨wrote, busy, hcycleOk⟩ := cycleOk_append hdisciplined
  have hinput0 : s0.input = within ++ .rfrd r.val :: rest := run_input_append hinput hbefore
  have hinputt : t.input = .rfrd r.val :: rest := run_input_append hinput0 hwithin
  have hregs : t.regs = s0.regs :=
    run_regs hwithin (by simpa [hinput0] using write_notMem_before_read hcycleOk hcycle)
  calc step t = exec (.rfRead r.val) (t.withInput rest) := step_of_input hinputt
    _ = .next ((t.withInput rest).withOutput (.word (t.readReg r))) := exec_rfRead r _
    _ = .next ((t.withInput rest).withOutput (.word (s0.readReg r))) := by rw [State.readReg_congr hregs]

/-- Settles O50: what construction checks is what R22 says of addresses. -/
theorem constructionChecksConfiguration : Obligations.ConstructionChecksConfiguration := by
  unfold Obligations.ConstructionChecksConfiguration
  intro c
  rw [← Config_valid_iff_meetsConstraints]
  exact ⟨fun hvalid => if_pos hvalid, fun hinvalid => if_neg hinvalid⟩

end Sys2Proof.Proofs
end

section
/-! Vector words as the spec's laws use them (44_alu_vector.md section 3): a word is its three lanes, so what a lane
operation does to every lane it does to the word. -/

namespace Sys2Proof.Machine

open Sys2Proof.Safety

/-! ### Laws of a lane carried to the word -/

/-- R85, D10: the lanes of a word put together again are the word without its bits 31:30. -/
theorem mklanes_lanes (w : Word) :
    mklanes (lane w 2) (lane w 1) (lane w 0) = BitVec.ofNat 32 (w.toNat % 2 ^ 30) := by
  apply BitVec.eq_of_toNat_eq
  simp only [mklanes_toNat, lane_toNat, laneNat, BitVec.toNat_ofNat]
  omega

/-- R86: an operation that gives lane `k` of `w`, for each lane, gives `w` without its bits 31:30. -/
theorem lanewise_eq_of_lanes {f : Lane → Lane → Lane} {a b w : Word}
    (h : ∀ k, k < 3 → f (lane a k) (lane b k) = lane w k) :
    lanewise f a b = BitVec.ofNat 32 (w.toNat % 2 ^ 30) := by
  rw [lanewise, h 2 (by decide), h 1 (by decide), h 0 (by decide), mklanes_lanes]

/-- R86: what is commutative on lanes is commutative on words. -/
theorem lanewise_comm {f : Lane → Lane → Lane} (h : ∀ x y, f x y = f y x) (a b : Word) :
    lanewise f a b = lanewise f b a := by
  rw [lanewise, lanewise, h (lane a 2), h (lane a 1), h (lane a 0)]

/-! ### The scaled product of two lanes -/

/-- R93: the product of two lanes does not look at their order. -/
theorem laneScale_comm (x y : Lane) : laneScale x y = laneScale y x := by
  apply BitVec.eq_of_toNat_eq
  rw [laneScale_toNat, laneScale_toNat, Nat.mul_comm]

/-- R93: `0x100` is the unit, as the division by 256 undoes it and nothing is left to round. -/
theorem laneScale_unit (x : Lane) : laneScale x 0x100#10 = x := by
  have hx := x.isLt
  apply BitVec.eq_of_toNat_eq
  rw [laneScale_toNat, BitVec.toNat_ofNat]
  omega

/-- The word of the law on VMUL's unit has `0x100` in every lane. -/
theorem lane_unitWord {k : Nat} (hk : k < 3) : lane 0x10040100#32 k = 0x100#10 :=
  lane_mklanes_self 0x100#10 hk

end Sys2Proof.Machine
end

section
/-! What construction answers (10_state.md section 7, R107), and the invariant of what it leaves. -/

namespace Sys2Proof.Safety

open Sys2Proof.Machine

/-- R99, R107: construction gives the initial machine of a valid configuration and no other. -/
theorem construct_eq_next_iff {c : Config} {s : State} :
    construct c = .next s ↔ c.valid = true ∧ s = State.initial c := by
  unfold construct
  split
  next hvalid =>
    constructor
    · rintro ⟨⟩
      exact ⟨hvalid, rfl⟩
    · rintro ⟨-, rfl⟩
      rfl
  next hinvalid => exact ⟨fun h => absurd h raiseFailure_next, fun ⟨hvalid, _⟩ => absurd hvalid hinvalid⟩

/-- R24, R25: the initial memories list no byte, so they are canonical and in range whatever the map is. -/
theorem inv_initial {c : Config} (h : c.valid = true) : inv (State.initial c) = true := by
  refine inv_iff.2 ⟨h, fun m => ?_, rfl⟩
  rw [State.memGood, State.initial_mem]
  exact ⟨rfl, rfl⟩

end Sys2Proof.Safety
end

section
/-! The laws that join two vector commands (95_test_vectors.md section 2.6), and the invariant of a machine that has
just been constructed (70_reset_and_hazards.md section 1). -/

namespace Sys2Proof.Proofs

open Sys2Proof.Machine Sys2Proof.Safety

/-- Settles O27: every command but VBCAST is lanewise, so that each law is one of a single lane: lanes are added and
subtracted modulo 1024, and `laneScale` is commutative with the unit `0x100`. -/
theorem vectorLawsHold : Obligations.VectorLawsHold := by
  unfold Obligations.VectorLawsHold
  intro w t x s
  simp only [resultWord_of_exec (exec_vbcast t x s), resultWord_of_exec (exec_vaddi_eq_lanewise w t s),
    fun a b => resultWord_of_exec (exec_vadd a b s), fun a b => resultWord_of_exec (exec_vsub a b s),
    fun a b => resultWord_of_exec (exec_vmul a b s), Option.some.injEq]
  refine ⟨⟨_, rfl, rfl⟩, ⟨_, rfl, ?subUndoesAdd⟩, ?mulUnit, lanewise_comm BitVec.add_comm w t,
    lanewise_comm laneScale_comm w t⟩
  case subUndoesAdd =>
    refine lanewise_eq_of_lanes fun k hk => ?_
    rw [lane_lanewise _ w t hk, BitVec.add_sub_cancel]
  case mulUnit =>
    refine lanewise_eq_of_lanes fun k hk => ?_
    rw [lane_unitWord hk, laneScale_unit]

/-- Settles O52: construction answers for a valid configuration only, and the example map of the reset state is one. -/
theorem invariantHoldsAfterConstruction : Obligations.InvariantHoldsAfterConstruction := by
  unfold Obligations.InvariantHoldsAfterConstruction
  refine ⟨fun c s hconstruct => ?constructed, inv_initial (by decide)⟩
  case constructed =>
    obtain ⟨hvalid, rfl⟩ := construct_eq_next_iff.1 hconstruct
    exact inv_initial hvalid

end Sys2Proof.Proofs
end
